-- ==== Sys2Proof/Word.lean ====
section
/-! DEFINITION. The two value types of the block: the byte a program image is made of, and the `Val` a register or a
memory cell holds.

`Val` (R10, D25) is the type `Nat`, written so everywhere: a natural number, unbounded in `legacy` mode because ADD, MUL and
LDI results are left unmasked. That `strict8` mode keeps every value below 256 is an invariant (`Machine.State.Inv`), not a
type. -/

namespace Sys2Proof

/-- A byte, bit 0 the least significant (R9). Opcodes and program images are made of bytes. -/
abbrev Byte := BitVec 8

end Sys2Proof
end

