-- ==== Sys2Proof/Config.lean ====
section
/-! DEFINITION. The parameters of the model that are fixed for one machine (R7, R8): ARITH_MODE, OPERAND_FETCH_AT_TOP and
OPCODE_MAP, with the mnemonics an OPCODE_MAP gives a value to. -/

namespace Sys2Proof

/-- `ARITH_MODE` (R7): `legacy`, the normative default, leaves ADD, MUL, AND and LDI results unmasked; `strict8` reduces
them modulo 256 (D2, D19). -/
inductive ArithMode where
  | legacy
  | strict8
  deriving DecidableEq, Repr

/-- `OPERAND_FETCH_AT_TOP` (R8, R84, D9): what an operand fetch past address 255 does. -/
inductive OperandFetchAtTop where
  | fault
  | wrap
  deriving DecidableEq, Repr

/-- The 22 instruction names of R66. -/
inductive Mnemonic where
  | hlt | ldi | ld | prn | nop | push | pop | call | ret | jmp | jeq | jne | jgt | jlt | jle | jge
  | add | mul | cmp | and | inc | dec
  deriving DecidableEq, Repr

/-- `OPCODE_MAP` (R8, R66, D1): the opcode byte of every mnemonic. What a map must satisfy is `OpcodeMap.Valid` (R67). -/
structure OpcodeMap where
  hlt  : Byte
  ldi  : Byte
  ld   : Byte
  prn  : Byte
  nop  : Byte
  push : Byte
  pop  : Byte
  call : Byte
  ret  : Byte
  jmp  : Byte
  jeq  : Byte
  jne  : Byte
  jgt  : Byte
  jlt  : Byte
  jle  : Byte
  jge  : Byte
  add  : Byte
  mul  : Byte
  cmp  : Byte
  and  : Byte
  inc  : Byte
  dec  : Byte
  deriving DecidableEq, Repr

/-- The parameters fixed for one machine. REG_INIT, FLAGS_INIT and MEM_INIT are arguments of the start of a run
(`Machine.StartValues`). -/
structure Config where
  arithMode         : ArithMode
  operandFetchAtTop : OperandFetchAtTop
  opcodeMap         : OpcodeMap
  deriving DecidableEq, Repr

end Sys2Proof
end

