-- ==== Sys2Proof/Syntax.lean ====
section
/-! DEFINITION. The instructions: one constructor per row of spec/opcode_table.json, in the table's order (R66). -/

namespace Sys2Proof

/-- An instruction with its decoded operands. An operand is a whole cell (R62): `rA` and `rB` are register indices and
`imm` is LDI's immediate. A register index outside 0..7 is an instruction too, whose handler faults (R63, R88). -/
inductive Instr where
  | hlt
  | ldi (rA imm : Nat)
  | ld (rA rB : Nat)
  | prn (rA : Nat)
  | nop
  | push (rA : Nat)
  | pop (rA : Nat)
  | call (rA : Nat)
  | ret
  | jmp (rA : Nat)
  | jeq (rA : Nat)
  | jne (rA : Nat)
  | jgt (rA : Nat)
  | jlt (rA : Nat)
  | jle (rA : Nat)
  | jge (rA : Nat)
  | add (rA rB : Nat)
  | mul (rA rB : Nat)
  | cmp (rA rB : Nat)
  | and (rA rB : Nat)
  | inc (rA : Nat)
  | dec (rA : Nat)
  deriving DecidableEq, Repr

end Sys2Proof
end

