-- ==== Sys2Proof/WellFormed.lean ====
section
/-! DEFINITION. Which instructions are well-formed: every register operand is one of the eight indices (R63), and an
immediate is a byte, as it is in a program image (R193). -/

namespace Sys2Proof

/-- The register operands of an instruction, operand 1 first (R66). -/
def Instr.regOperands : Instr → List Nat
  | .hlt | .nop | .ret => []
  | .ldi rA _ => [rA]
  | .prn rA | .push rA | .pop rA | .call rA | .inc rA | .dec rA => [rA]
  | .jmp rA | .jeq rA | .jne rA | .jgt rA | .jlt rA | .jle rA | .jge rA => [rA]
  | .ld rA rB | .add rA rB | .mul rA rB | .cmp rA rB | .and rA rB => [rA, rB]

/-- The immediate operands of an instruction: LDI's second operand only (R63). -/
def Instr.immOperands : Instr → List Nat
  | .ldi _ imm => [imm]
  | .hlt | .ld _ _ | .prn _ | .nop | .push _ | .pop _ | .call _ | .ret => []
  | .jmp _ | .jeq _ | .jne _ | .jgt _ | .jlt _ | .jle _ | .jge _ => []
  | .add _ _ | .mul _ _ | .cmp _ _ | .and _ _ | .inc _ | .dec _ => []

/-- Every register operand is in 0..7 (R63). -/
def Instr.registersInRange (i : Instr) : Bool := i.regOperands.all (fun r => decide (r < 8))

/-- Every immediate is a byte (R193: an image holds 0..255). -/
def Instr.immediatesInRange (i : Instr) : Bool := i.immOperands.all (fun v => decide (v < 256))

/-- An instruction a program image can hold and no register check refuses. -/
def Instr.wellFormed (i : Instr) : Bool := i.registersInRange && i.immediatesInRange

end Sys2Proof
end

