-- ==== Sys2Proof/Decode.lean ====
section
/-! DEFINITION. The decoder and the dispatch table (30_encoding.md), total on any cells and rejecting by name, and after
them the encoder, the assembler spelling (R72) and the host's reading of a table word. -/

namespace Sys2Proof

/-! ### The fields of an opcode byte -/

/-- The decoder's outputs for an opcode byte `NNAPDDDD` (R61): operand count, ALU bit, PC-mutation bit, lower nibble. -/
structure Fields where
  n   : BitVec 2
  alu : Bool
  pcm : Bool
  nib : BitVec 4
  deriving DecidableEq, Repr

/-- The four fields of an opcode byte (R61, R83). Every byte decodes. -/
def fieldsOf (op : Byte) : Fields where
  n   := op.extractLsb' 6 2
  alu := op.getLsbD 5
  pcm := op.getLsbD 4
  nib := op.extractLsb' 0 4

/-! ### The opcode map -/

/-- All mnemonics, in the order of R66. -/
def Mnemonic.all : List Mnemonic :=
  [.hlt, .ldi, .ld, .prn, .nop, .push, .pop, .call, .ret, .jmp, .jeq, .jne, .jgt, .jlt, .jle, .jge,
   .add, .mul, .cmp, .and, .inc, .dec]

/-- The number of operand bytes of an instruction (R67 constraint 2). -/
def Mnemonic.arity : Mnemonic → Nat
  | .hlt | .nop | .ret => 0
  | .prn | .push | .pop | .call | .jmp | .jeq | .jne | .jgt | .jlt | .jge | .jle | .inc | .dec => 1
  | .ldi | .ld | .add | .mul | .and | .cmp => 2

/-- Whether the handler of an instruction sets PC itself (R67 constraints 3 and 4). -/
def Mnemonic.setsPc : Mnemonic → Bool
  | .call | .ret | .jmp | .jeq | .jne | .jgt | .jlt | .jge | .jle => true
  | .hlt | .ldi | .ld | .prn | .nop | .push | .pop | .add | .mul | .cmp | .and | .inc | .dec => false

/-- The default `OPCODE_MAP` (R66). PRESUMED (GK2, D1): HLT, LDI and PRN are the source's; the other 19 byte values are the
LS-8 assignments, from general knowledge. Unsafe where the design differs; the statements hold for every valid map. -/
def OpcodeMap.default : OpcodeMap where
  hlt  := 0b00000001#8
  ldi  := 0b10000010#8
  ld   := 0b10000011#8
  prn  := 0b01000111#8
  nop  := 0b00000000#8
  push := 0b01000101#8
  pop  := 0b01000110#8
  call := 0b01010000#8
  ret  := 0b00010001#8
  jmp  := 0b01010100#8
  jeq  := 0b01010101#8
  jne  := 0b01010110#8
  jgt  := 0b01010111#8
  jlt  := 0b01011000#8
  jle  := 0b01011001#8
  jge  := 0b01011010#8
  add  := 0b10100000#8
  mul  := 0b10100010#8
  cmp  := 0b10100111#8
  and  := 0b10101000#8
  inc  := 0b01100101#8
  dec  := 0b01100110#8

/-- The opcode byte a map gives a mnemonic. -/
def OpcodeMap.code (m : OpcodeMap) : Mnemonic → Byte
  | .hlt => m.hlt | .ldi => m.ldi | .ld => m.ld | .prn => m.prn | .nop => m.nop | .push => m.push | .pop => m.pop
  | .call => m.call | .ret => m.ret | .jmp => m.jmp | .jeq => m.jeq | .jne => m.jne | .jgt => m.jgt | .jlt => m.jlt
  | .jle => m.jle | .jge => m.jge | .add => m.add | .mul => m.mul | .cmp => m.cmp | .and => m.and | .inc => m.inc
  | .dec => m.dec

/-- The five constraints R67 puts on an `OPCODE_MAP`: distinct values, the arity in bits 7:6, the PC-mutation bit for
exactly the jumps, CALL and RET, and the three byte values the source gives. -/
abbrev OpcodeMap.Valid (m : OpcodeMap) : Prop :=
  (Mnemonic.all.map m.code).Nodup
  ∧ (∀ k ∈ Mnemonic.all, (fieldsOf (m.code k)).n.toNat = k.arity)
  ∧ (∀ k ∈ Mnemonic.all, (fieldsOf (m.code k)).pcm = k.setsPc)
  ∧ m.hlt = 0x01#8 ∧ m.ldi = 0x82#8 ∧ m.prn = 0x47#8

/-- The dispatch multiplexer's selection (R64, R85): the row whose FULL opcode byte is `op`, if there is one. -/
def OpcodeMap.lookup (m : OpcodeMap) (op : Byte) : Option Mnemonic :=
  Mnemonic.all.find? (fun k => decide (m.code k = op))

/-! ### Decoding -/

/-- The instruction of a mnemonic with exactly its operands (R86); none when their number is not the mnemonic's. -/
def Instr.assemble : Mnemonic → List Nat → Option Instr
  | .hlt,  []       => some .hlt
  | .ldi,  [rA, v]  => some (.ldi rA v)
  | .ld,   [rA, rB] => some (.ld rA rB)
  | .prn,  [rA]     => some (.prn rA)
  | .nop,  []       => some .nop
  | .push, [rA]     => some (.push rA)
  | .pop,  [rA]     => some (.pop rA)
  | .call, [rA]     => some (.call rA)
  | .ret,  []       => some .ret
  | .jmp,  [rA]     => some (.jmp rA)
  | .jeq,  [rA]     => some (.jeq rA)
  | .jne,  [rA]     => some (.jne rA)
  | .jgt,  [rA]     => some (.jgt rA)
  | .jlt,  [rA]     => some (.jlt rA)
  | .jle,  [rA]     => some (.jle rA)
  | .jge,  [rA]     => some (.jge rA)
  | .add,  [rA, rB] => some (.add rA rB)
  | .mul,  [rA, rB] => some (.mul rA rB)
  | .cmp,  [rA, rB] => some (.cmp rA rB)
  | .and,  [rA, rB] => some (.and rA rB)
  | .inc,  [rA]     => some (.inc rA)
  | .dec,  [rA]     => some (.dec rA)
  | _, _            => none

/-- Why cells are no instruction. -/
inductive DecodeError where
  /-- There is no opcode cell. -/
  | noOpcode
  /-- The opcode value is not a row of the map (R68, R85), or is above 255 (R70, R82). -/
  | unknownOpcode (op : Nat)
  /-- Fewer operand cells follow than the opcode's count asks for. -/
  | missingOperand (k : Nat)
  /-- The map breaks R67: the opcode's count is not its mnemonic's arity. Impossible under `OpcodeMap.Valid`. -/
  | arityMismatch (k : Mnemonic)
  deriving DecidableEq, Repr

/-- Dispatch (R85, R86): the instruction an opcode byte and its fetched operands stand for. -/
def dispatch (m : OpcodeMap) (op : Byte) (ops : List Nat) : Except DecodeError Instr :=
  match m.lookup op with
  | none => .error (.unknownOpcode op.toNat)
  | some k =>
    match Instr.assemble k ops with
    | none => .error (.arityMismatch k)
    | some i => .ok i

/-- Decode the cells of an instruction, in the order of the cycle: the opcode value (R82), its fields (R83), its operands
(R84), dispatch (R85). Answers the instruction and the cells after it. -/
def decode (m : OpcodeMap) : List Nat → Except DecodeError (Instr × List Nat)
  | [] => .error .noOpcode
  | op :: rest =>
    if 255 < op then .error (.unknownOpcode op)
    else
      let n := (fieldsOf (BitVec.ofNat 8 op)).n.toNat
      if rest.length < n then .error (.missingOperand (rest.length + 1))
      else
        match dispatch m (BitVec.ofNat 8 op) (rest.take n) with
        | .error e => .error e
        | .ok i => .ok (i, rest.drop n)

/-! ### Encoding -/

/-- The mnemonic of an instruction. -/
def Instr.mnemonic : Instr → Mnemonic
  | .hlt => .hlt | .ldi _ _ => .ldi | .ld _ _ => .ld | .prn _ => .prn | .nop => .nop | .push _ => .push | .pop _ => .pop
  | .call _ => .call | .ret => .ret | .jmp _ => .jmp | .jeq _ => .jeq | .jne _ => .jne | .jgt _ => .jgt | .jlt _ => .jlt
  | .jle _ => .jle | .jge _ => .jge | .add _ _ => .add | .mul _ _ => .mul | .cmp _ _ => .cmp | .and _ _ => .and
  | .inc _ => .inc | .dec _ => .dec

/-- The operands of an instruction in encoding order (R66). -/
def Instr.operands : Instr → List Nat
  | .hlt | .nop | .ret => []
  | .prn rA | .push rA | .pop rA | .call rA | .inc rA | .dec rA => [rA]
  | .jmp rA | .jeq rA | .jne rA | .jgt rA | .jlt rA | .jle rA | .jge rA => [rA]
  | .ldi rA v => [rA, v]
  | .ld rA rB | .add rA rB | .mul rA rB | .cmp rA rB | .and rA rB => [rA, rB]

/-- The cells of an instruction (R60, R66): its opcode byte, then its operands. -/
def encode (m : OpcodeMap) (i : Instr) : List Nat := (m.code i.mnemonic).toNat :: i.operands

/-! ### Spelling (R72) -/

/-- The mnemonic as the source writes it. -/
def Mnemonic.name : Mnemonic → String
  | .hlt => "HLT" | .ldi => "LDI" | .ld => "LD" | .prn => "PRN" | .nop => "NOP" | .push => "PUSH" | .pop => "POP"
  | .call => "CALL" | .ret => "RET" | .jmp => "JMP" | .jeq => "JEQ" | .jne => "JNE" | .jgt => "JGT" | .jlt => "JLT"
  | .jle => "JLE" | .jge => "JGE" | .add => "ADD" | .mul => "MUL" | .cmp => "CMP" | .and => "AND" | .inc => "INC"
  | .dec => "DEC"

/-- An instruction in the spelling of R72: the mnemonic, a space, the operands with a comma between, registers first, a
register as `R` and its index, an immediate in decimal. -/
def Instr.spelling (i : Instr) : String :=
  match i.regOperands.map (fun r => "R" ++ toString r) ++ i.immOperands.map toString with
  | []     => i.mnemonic.name
  | [a]    => i.mnemonic.name ++ " " ++ a
  | a :: t => i.mnemonic.name ++ " " ++ a ++ "," ++ String.intercalate "," t

/-! ### Words of the opcode table -/

/-- The four cells (the most the cycle fetches, R69) of an instruction whose first `nbits` bits are `w`, bit 0 the least
significant bit of the first byte, every later bit 0. -/
def cellsOfWord (nbits w : Nat) : List Nat :=
  [0, 1, 2, 3].map (fun k => w % 2 ^ nbits / 256 ^ k % 256)

/-- The instruction the decoder reads, under the default map, from the word `w` of `nbits` bits. -/
def decodeTableWord (nbits w : Nat) : Option Instr :=
  match decode OpcodeMap.default (cellsOfWord nbits w) with
  | .ok (i, _) => some i
  | .error _ => none

end Sys2Proof
end

