-- ==== Sys2Proof/Machine/State.lean ====
section
/-! DEFINITION. The state of the block (10_state.md, 20_memory.md), the reasons it stops, and the state when a run starts
(R37). -/

namespace Sys2Proof.Machine

/-- The faults of R170. A fault is TAKEN as a next state whose status is `faulted` (R178); `step` answers the fault itself
from then on, since a faulted machine has no step (R80, R179). -/
inductive Fault where
  /-- Raised by the cycle: at fetch for a cell above 255 (R82), at dispatch for a byte that is no row of the map (R85, R171).
  Safe: the source calls it a hard stop. -/
  | unknownOpcode (op : Nat)
  /-- Raised by every handler with a register operand outside 0..7 (R88, R172, D7). Safe: the design may run on. -/
  | badRegister (r : Nat)
  /-- Raised by an operand fetch, LD, POP or RET at an address outside 0..255 (R43, R84, R175, D8, D9). Safe: the design may
  run on. -/
  | badAddress (a : Nat)
  /-- Raised by the generic ALU entry point only, which no opcode reaches (R130, R173, D23). Safe: no program sees it. -/
  | unsupportedAluOp (name : String)
  deriving DecidableEq, Repr

/-- Why there is no step, or no such move of the host. None of these is raised by an instruction. -/
inductive Refusal where
  /-- Raised by `exec` for an instruction without a meaning: no arm of this model. Safe. -/
  | notModelled (mnemonic : String)
  /-- Raised by `step` before the run is invoked: the only move of `Idle` is the host's (R80, D22). Safe. -/
  | idle
  /-- Raised by `step` after HLT: the run has ended normally (R80, R93, R185). Safe. -/
  | halted
  /-- Raised by `step` when the machine's OPCODE_MAP breaks R67 for this mnemonic; impossible under `OpcodeMap.Valid`.
  Safe. -/
  | opcodeMapArity (k : Mnemonic)
  /-- Raised by the host move `load` for an image of more than 256 bytes (R193, D20). Safe. -/
  | imageTooLong (k : Nat)
  /-- Raised by the host moves `load` and `invoke` on a machine that is not idle (R191, R196). Safe. -/
  | notIdle
  deriving DecidableEq, Repr

/-- The run status (R32). -/
inductive Status where
  | idle
  | running
  | halted
  | faulted (f : Fault)
  deriving DecidableEq, Repr

/-- The flag latch (R29, D15): E, G and L. -/
structure Flags where
  e : Bool
  g : Bool
  l : Bool
  deriving DecidableEq, Repr

/-- The decoder latches (R28): the fields of the opcode byte, and the operands fetched for this cycle, op1 first. Only the
operands fetched are held, so at most `n` of them are valid. -/
structure Latches where
  n   : BitVec 2
  alu : Bool
  pcm : Bool
  nib : BitVec 4
  ops : List Nat
  deriving DecidableEq, Repr

/-- Memory as (address, value) pairs, addresses strictly rising, no value equal to what an unlisted cell reads as; its
canonical form is `Memory.WF`. A cell holds a `Val`, not a byte (R42). -/
abbrev Memory := List (Nat × Nat)

/-- The register file (R20): R0 to R7. -/
structure Regs where
  r0 : Nat
  r1 : Nat
  r2 : Nat
  r3 : Nat
  r4 : Nat
  r5 : Nat
  r6 : Nat
  r7 : Nat
  deriving DecidableEq, Repr

/-- Everything the spec gives the machine (10_state.md), and the parameters fixed for it (R7, R8). -/
structure State where
  /-- R0 to R7 (R20); R7 is the stack pointer (R22). -/
  regs    : Regs
  /-- The program counter (R24, R25). -/
  pc      : Nat
  /-- The instruction register (R27). -/
  ir      : Nat
  /-- The decoder latches (R28). -/
  latches : Latches
  /-- The flag latch (R29). -/
  flags   : Flags
  /-- The run status (R32). -/
  status  : Status
  /-- The output channel (R33), first emitted first. -/
  output  : List Nat
  /-- The 256 cells (R40, R42). -/
  mem     : Memory
  /-- ARITH_MODE, OPERAND_FETCH_AT_TOP, OPCODE_MAP (R7, R8); no instruction changes them (R94). -/
  config  : Config
  deriving DecidableEq, Repr

/-- The default parameters of R7 and R8. -/
def Config.reset : Config where
  arithMode         := .legacy
  operandFetchAtTop := .fault
  opcodeMap         := OpcodeMap.default

/-- The state when a run starts with no image loaded (R37, R191): SP = 0xF4, PC = 0, status running, output empty.
DESIGN CHOICE, unsafe for a claim that rests on them: R0 to R6 = 0 (D3), flags clear (D4), memory all 0 (D6), IR and latches
0 (D27). -/
def State.reset : State where
  regs    := { r0 := 0, r1 := 0, r2 := 0, r3 := 0, r4 := 0, r5 := 0, r6 := 0, r7 := 0xF4 }
  pc      := 0
  ir      := 0
  latches := { n := 0, alu := false, pcm := false, nib := 0, ops := [] }
  flags   := { e := false, g := false, l := false }
  status  := .running
  output  := []
  mem     := []
  config  := Config.reset

end Sys2Proof.Machine
end

