-- ==== Sys2Proof/Machine/Flags.lean ====
section
/-! DEFINITION. The flag latch: what CMP writes (R124), the branch resolver's conditions (R147), and the packed view (R31). -/

namespace Sys2Proof.Machine

/-- The flags CMP writes for first value `a` and second value `b`, unsigned on the whole values (R124, R125). -/
def Flags.compare (a b : Nat) : Flags :=
  if a = b then { e := true, g := false, l := false }
  else if a < b then { e := false, g := false, l := true }
  else { e := false, g := true, l := false }

/-- JEQ's condition (R147): E. -/
def Flags.equal (f : Flags) : Bool := f.e

/-- JNE's condition: not E. -/
def Flags.notEqual (f : Flags) : Bool := !f.e

/-- JGT's condition: G. -/
def Flags.greater (f : Flags) : Bool := f.g

/-- JLT's condition: L. -/
def Flags.less (f : Flags) : Bool := f.l

/-- JGE's condition: E or G. -/
def Flags.greaterOrEqual (f : Flags) : Bool := f.e || f.g

/-- JLE's condition: E or L. -/
def Flags.lessOrEqual (f : Flags) : Bool := f.e || f.l

/-- Exactly one of E, G, L is set, as after any CMP (R30). -/
def Flags.oneHot (f : Flags) : Bool := (f.e.toNat + f.g.toNat + f.l.toNat) == 1

/-- The packed view `00000LGE` (R31). PRESUMED (D15, GK3): no instruction reads it. Safe: unobservable. -/
def Flags.packed (f : Flags) : Byte := BitVec.ofNat 8 (f.e.toNat + 2 * f.g.toNat + 4 * f.l.toNat)

end Sys2Proof.Machine
end

