-- ==== Sys2Proof/Machine/Ops.lean ====
section
/-! DEFINITION. The shared operations: clamp and mask, registers, memory, the stack pointer, PC advance, output, and taking
a fault. -/

namespace Sys2Proof.Machine

/-! ### Values -/

/-- The shared clamp routine (R11): a negative value wraps to 255 and a value above 255 to 0. It is not reduction mod 256. -/
def clamp (x : Int) : Nat := if x < 0 then 255 else if 255 < x then 0 else x.toNat

/-- `mask8` (R12). -/
def mask8 (x : Nat) : Nat := x % 256

/-- What ARITH_MODE makes of a value written by ADD, MUL, AND, LDI, PUSH and CALL (R7, D19): itself in `legacy`, its
`mask8` in `strict8`. -/
def narrow (mode : ArithMode) (x : Nat) : Nat :=
  match mode with
  | .legacy => x
  | .strict8 => mask8 x

/-- `narrow` in the machine's own mode. -/
def State.narrow (s : State) (x : Nat) : Nat := Sys2Proof.Machine.narrow s.config.arithMode x

/-! ### Registers (R13, R20 to R23) -/

/-- The cell of the register file at an index. -/
def Regs.get (r : Regs) (i : Fin 8) : Nat :=
  match i.val with
  | 0 => r.r0
  | 1 => r.r1
  | 2 => r.r2
  | 3 => r.r3
  | 4 => r.r4
  | 5 => r.r5
  | 6 => r.r6
  | _ => r.r7

/-- The register file with one cell replaced. -/
def Regs.set (r : Regs) (i : Fin 8) (v : Nat) : Regs :=
  match i.val with
  | 0 => { r with r0 := v }
  | 1 => { r with r1 := v }
  | 2 => { r with r2 := v }
  | 3 => { r with r3 := v }
  | 4 => { r with r4 := v }
  | 5 => { r with r5 := v }
  | 6 => { r with r6 := v }
  | _ => { r with r7 := v }

/-- `x[i]`. -/
def State.reg (s : State) (i : Fin 8) : Nat := s.regs.get i

/-- `x[i] <- v`. -/
def State.setReg (s : State) (i : Fin 8) (v : Nat) : State := { s with regs := s.regs.set i v }

/-- `SP`, another name for `x[7]` (R22). -/
def State.sp (s : State) : Nat := s.reg 7

/-- `x[7] <- clamp(x[7] - 1)` (R141, R144). -/
def State.decSp (s : State) : State := s.setReg 7 (clamp ((s.sp : Int) - 1))

/-- `x[7] <- clamp(x[7] + 1)` (R142, R145). -/
def State.incSp (s : State) : State := s.setReg 7 (clamp ((s.sp : Int) + 1))

/-! ### Memory (R14, R40 to R54) -/

/-- What a cell that nothing has written reads as. DESIGN CHOICE (D6: MEM_INIT is open): the test vectors' 0. Unsafe for a
claim that rests on it. -/
abbrev Memory.unlisted : Nat := 0

/-- The cell at an address; an unlisted one reads as `Memory.unlisted`. -/
def Memory.read : Memory → Nat → Nat
  | [], _ => Memory.unlisted
  | (b, w) :: m, a => if a = b then w else Memory.read m a

/-- Write one cell, keeping the canonical form. -/
def Memory.write : Memory → Nat → Nat → Memory
  | [], a, v => if v = Memory.unlisted then [] else [(a, v)]
  | (b, w) :: m, a, v =>
    if a < b then (if v = Memory.unlisted then (b, w) :: m else (a, v) :: (b, w) :: m)
    else if a = b then (if v = Memory.unlisted then m else (a, v) :: m)
    else (b, w) :: Memory.write m a v

/-- The canonical form: addresses strictly rising and in 0..255 (R40), no cell equal to what an unlisted one reads as. -/
abbrev Memory.WF (m : Memory) : Prop :=
  m.Pairwise (fun p q => p.1 < q.1) ∧ ∀ p ∈ m, p.1 ≤ 255 ∧ p.2 ≠ Memory.unlisted

/-- `MemRead(a)`: the cell, or `BadAddress(a)` outside 0..255 (R14, R43). -/
def State.memRead (s : State) (a : Nat) : Except Fault Nat :=
  if a ≤ 255 then .ok (s.mem.read a) else .error (.badAddress a)

/-- `MemWrite(a, v)`. Its callers PUSH and CALL give it a clamped address, so it never faults (R43, R141). -/
def State.memWrite (s : State) (a : Nat) (v : Nat) : State := { s with mem := s.mem.write a v }

/-- Bytes at `a`, `a + 1`, ... in order (R193). -/
def Memory.writeBytes : Memory → Nat → List Byte → Memory
  | m, _, [] => m
  | m, a, b :: bs => Memory.writeBytes (m.write a b.toNat) (a + 1) bs

/-! ### Program counter (R87, R89) -/

/-- The end of a cycle with `pcm = 0` and `n` operands: PC moves past the instruction and is clamped (R87, R89). -/
def State.advance (s : State) (n : Nat) : State := { s with pc := clamp ((s.pc + 1 + n : Nat) : Int) }

/-- The end of a cycle whose handler has set PC to `t` itself (`pcm = 1`): only the clamp (R87, R89). -/
def State.jumpTo (s : State) (t : Nat) : State := { s with pc := clamp (t : Int) }

/-! ### Output (R106) -/

/-- `emit(v)`. -/
def State.emit (s : State) (v : Nat) : State := { s with output := s.output ++ [v] }

/-! ### Faults (R170, R178) -/

/-- The state a fault leaves (R178): the status becomes `faulted`, nothing else changes, PC stays at the instruction. -/
def State.faultWith (s : State) (f : Fault) : State := { s with status := .faulted f }

/-- `raise F` (R15, R170, R178): TAKING A FAULT. It saves nothing and goes nowhere; there is no return from it (R179). The
state it is given is the one before the instruction, except IR and the latches. -/
def raise (f : Fault) (s : State) : Host.Outcome State Fault Refusal := .next (s.faultWith f)

end Sys2Proof.Machine
end

