-- ==== Sys2Proof/Machine/Operands.lean ====
section
/-! DEFINITION. The operand forms of the handlers: the register check (R88), in operand order and before anything is read or
written, and the checked read of a data cell (R43). -/

namespace Sys2Proof.Machine

/-- A handler with one register operand: `BadRegister(r)` outside 0..7, else `k` on the index (R88, D7). -/
def withReg (r : Nat) (s : State) (k : Fin 8 → Host.Outcome State Fault Refusal) : Host.Outcome State Fault Refusal :=
  if h : r < 8 then k ⟨r, h⟩ else raise (.badRegister r) s

/-- A handler with two register operands, operand 1 checked before operand 2 (R88, R176). -/
def withRegs (rA rB : Nat) (s : State) (k : Fin 8 → Fin 8 → Host.Outcome State Fault Refusal) :
    Host.Outcome State Fault Refusal :=
  withReg rA s (fun a => withReg rB s (fun b => k a b))

/-- A handler that reads the data cell at `a`: `BadAddress(a)` outside 0..255, else `k` on its value (R43, D8). -/
def withCell (a : Nat) (s : State) (k : Nat → Host.Outcome State Fault Refusal) : Host.Outcome State Fault Refusal :=
  match s.memRead a with
  | .error f => raise f s
  | .ok v => k v

end Sys2Proof.Machine
end

