-- ==== Sys2Proof/Machine/Alu.lean ====
section
/-! DEFINITION. ADD, MUL, AND, CMP, INC and DEC (42_alu.md), and the generic ALU entry point no opcode reaches (R130). -/

namespace Sys2Proof.Machine

/-- `x[a] <- x[a] op x[b]`, unbounded, then narrowed by ARITH_MODE (R120, R128). Both operands are read before the write
(R129). -/
def State.aluBinary (op : Nat → Nat → Nat) (a b : Fin 8) (s : State) : State :=
  s.setReg a (s.narrow (op (s.reg a) (s.reg b)))

/-- ADD rA, rB (R121). -/
def execAdd (rA rB : Nat) (s : State) : Host.Outcome State Fault Refusal :=
  withRegs rA rB s (fun a b => .next ((s.aluBinary (fun x y => x + y) a b).advance 2))

/-- MUL rA, rB (R122), unsigned. -/
def execMul (rA rB : Nat) (s : State) : Host.Outcome State Fault Refusal :=
  withRegs rA rB s (fun a b => .next ((s.aluBinary (fun x y => x * y) a b).advance 2))

/-- AND rA, rB (R123), on the binary expansions of the two naturals (R15). -/
def execAnd (rA rB : Nat) (s : State) : Host.Outcome State Fault Refusal :=
  withRegs rA rB s (fun a b => .next ((s.aluBinary (fun x y => x &&& y) a b).advance 2))

/-- CMP rA, rB (R124): the flag latch and no register. -/
def execCmp (rA rB : Nat) (s : State) : Host.Outcome State Fault Refusal :=
  withRegs rA rB s (fun a b =>
    .next (State.advance { s with flags := Flags.compare (s.reg a) (s.reg b) } 2))

/-- INC rA (R126): clamped in both modes. -/
def execInc (rA : Nat) (s : State) : Host.Outcome State Fault Refusal :=
  withReg rA s (fun a => .next ((s.setReg a (clamp ((s.reg a : Int) + 1))).advance 1))

/-- DEC rA (R127): clamped in both modes. -/
def execDec (rA : Nat) (s : State) : Host.Outcome State Fault Refusal :=
  withReg rA s (fun a => .next ((s.setReg a (clamp ((s.reg a : Int) - 1))).advance 1))

/-- The generic ALU entry point (R130, R173, D23): an internal interface that no opcode reaches. It adds for the additive
operation, as ADD does, and raises `UnsupportedAluOp` for any other name. It is no instruction, so PC does not move.
PRESUMED: the additive operation's name is ADD's mnemonic. Safe: no program reaches it. -/
def genericAlu (name : String) (rA rB : Nat) (s : State) : Host.Outcome State Fault Refusal :=
  if name = "ADD" then withRegs rA rB s (fun a b => .next (s.aluBinary (fun x y => x + y) a b))
  else raise (.unsupportedAluOp name) s

end Sys2Proof.Machine
end

