-- ==== Sys2Proof/Machine/Basic.lean ====
section
/-! DEFINITION. HLT, LDI, LD, PRN and NOP (41_basic.md). -/

namespace Sys2Proof.Machine

/-- HLT (R100): the run ends; PC keeps the address of the HLT. -/
def execHlt (s : State) : Host.Outcome State Fault Refusal := .next { s with status := .halted }

/-- LDI rA, imm (R101). -/
def execLdi (rA imm : Nat) (s : State) : Host.Outcome State Fault Refusal :=
  withReg rA s (fun a => .next ((s.setReg a (s.narrow imm)).advance 2))

/-- LD rA, rB (R102): the address is read before rA is written. -/
def execLd (rA rB : Nat) (s : State) : Host.Outcome State Fault Refusal :=
  withRegs rA rB s (fun a b => withCell (s.reg b) s (fun v => .next ((s.setReg a v).advance 2)))

/-- PRN rA (R103, R106): the whole value is emitted. -/
def execPrn (rA : Nat) (s : State) : Host.Outcome State Fault Refusal :=
  withReg rA s (fun a => .next ((s.emit (s.reg a)).advance 1))

/-- NOP (R104). -/
def execNop (s : State) : Host.Outcome State Fault Refusal := .next (s.advance 0)

end Sys2Proof.Machine
end

