-- ==== Sys2Proof/Machine/Jumps.lean ====
section
/-! DEFINITION. JMP and the six conditional jumps (43_stack_control.md, section 3). -/

namespace Sys2Proof.Machine

/-- JMP rA (R146). -/
def execJmp (rA : Nat) (s : State) : Host.Outcome State Fault Refusal :=
  withReg rA s (fun a => .next (s.jumpTo (s.reg a)))

/-- The one form of the six conditional jumps (R147): the register is checked even when the jump is not taken; taken, PC
becomes rA; not taken, the handler moves PC past its own operand (R154). -/
def branchIf (taken : Bool) (rA : Nat) (s : State) : Host.Outcome State Fault Refusal :=
  withReg rA s (fun a => .next (if taken then s.jumpTo (s.reg a) else s.jumpTo (s.pc + 2)))

/-- JEQ rA (R148). -/
def execJeq (rA : Nat) (s : State) : Host.Outcome State Fault Refusal := branchIf s.flags.equal rA s

/-- JNE rA (R149). -/
def execJne (rA : Nat) (s : State) : Host.Outcome State Fault Refusal := branchIf s.flags.notEqual rA s

/-- JGT rA (R150). -/
def execJgt (rA : Nat) (s : State) : Host.Outcome State Fault Refusal := branchIf s.flags.greater rA s

/-- JLT rA (R151). -/
def execJlt (rA : Nat) (s : State) : Host.Outcome State Fault Refusal := branchIf s.flags.less rA s

/-- JGE rA (R152). -/
def execJge (rA : Nat) (s : State) : Host.Outcome State Fault Refusal := branchIf s.flags.greaterOrEqual rA s

/-- JLE rA (R153). -/
def execJle (rA : Nat) (s : State) : Host.Outcome State Fault Refusal := branchIf s.flags.lessOrEqual rA s

end Sys2Proof.Machine
end

