-- ==== Sys2Proof/Machine/Stack.lean ====
section
/-! DEFINITION. PUSH, POP, CALL and RET (43_stack_control.md, sections 1 and 2). -/

namespace Sys2Proof.Machine

/-- PUSH rA (R141): SP is decremented, then rA is read (so PUSH R7 pushes the new SP, D10) and written at the new SP. -/
def execPush (rA : Nat) (s : State) : Host.Outcome State Fault Refusal :=
  withReg rA s (fun a =>
    .next ((s.decSp.memWrite s.decSp.sp (s.narrow (s.decSp.reg a))).advance 1))

/-- POP rA (R142): the cell at SP goes to rA, then SP is incremented (so POP R7 increments what it popped, D11). -/
def execPop (rA : Nat) (s : State) : Host.Outcome State Fault Refusal :=
  withReg rA s (fun a => withCell s.sp s (fun v => .next ((s.setReg a v).incSp.advance 1)))

/-- CALL rA (R144): `PC + 2` is pushed, then PC becomes rA, read after the push (so CALL R7 jumps to the new SP, D12). -/
def execCall (rA : Nat) (s : State) : Host.Outcome State Fault Refusal :=
  withReg rA s (fun a =>
    .next ((s.decSp.memWrite s.decSp.sp (s.narrow (s.pc + 2))).jumpTo (s.decSp.reg a)))

/-- RET (R145): PC becomes the cell at SP, then SP is incremented. -/
def execRet (s : State) : Host.Outcome State Fault Refusal :=
  withCell s.sp s (fun v => .next (s.incSp.jumpTo v))

end Sys2Proof.Machine
end

