-- ==== Sys2Proof/Machine/Dispatch.lean ====
section
/-! DEFINITION. The dispatch multiplexer's handlers (R85, R86): one arm per constructor of Instr, in the table's order. -/

namespace Sys2Proof.Machine

def exec (i : Instr) (s : State) : Host.Outcome State Fault Refusal :=
  match i with
  | .hlt => Sys2Proof.Machine.execHlt s
  | .ldi rA imm => Sys2Proof.Machine.execLdi rA imm s
  | .ld rA rB => Sys2Proof.Machine.execLd rA rB s
  | .prn rA => Sys2Proof.Machine.execPrn rA s
  | .nop => Sys2Proof.Machine.execNop s
  | .push rA => Sys2Proof.Machine.execPush rA s
  | .pop rA => Sys2Proof.Machine.execPop rA s
  | .call rA => Sys2Proof.Machine.execCall rA s
  | .ret => Sys2Proof.Machine.execRet s
  | .jmp rA => Sys2Proof.Machine.execJmp rA s
  | .jeq rA => Sys2Proof.Machine.execJeq rA s
  | .jne rA => Sys2Proof.Machine.execJne rA s
  | .jgt rA => Sys2Proof.Machine.execJgt rA s
  | .jlt rA => Sys2Proof.Machine.execJlt rA s
  | .jle rA => Sys2Proof.Machine.execJle rA s
  | .jge rA => Sys2Proof.Machine.execJge rA s
  | .add rA rB => Sys2Proof.Machine.execAdd rA rB s
  | .mul rA rB => Sys2Proof.Machine.execMul rA rB s
  | .cmp rA rB => Sys2Proof.Machine.execCmp rA rB s
  | .and rA rB => Sys2Proof.Machine.execAnd rA rB s
  | .inc rA => Sys2Proof.Machine.execInc rA s
  | .dec rA => Sys2Proof.Machine.execDec rA s

end Sys2Proof.Machine
end

