-- ==== Sys2Proof/Machine/Fetch.lean ====
section
/-! DEFINITION. The first half of the cycle (R81 to R85): opcode fetch, decode, operand fetch and the dispatch lookup, with
the writes of IR and the decoder latches. -/

namespace Sys2Proof.Machine

/-- Where operand `k` of the instruction at `pc` is fetched from (R84): `pc + k`, less 256 above 255 under `wrap`. Under
`fault` an address above 255 stays as it is, and the read of it raises `BadAddress`. -/
def operandAddr (c : Config) (pc k : Nat) : Nat :=
  if pc + k ≤ 255 then pc + k
  else
    match c.operandFetchAtTop with
    | .fault => pc + k
    | .wrap => pc + k - 256

/-- Fetch operands `k`, `k + 1`, ... , `count` of them in increasing order (R84): what was fetched, and the fault that ended
the fetch, if one did. -/
def State.fetchOperands (s : State) (k : Nat) : Nat → List Nat × Option Fault
  | 0 => ([], none)
  | count + 1 =>
    match s.memRead (operandAddr s.config s.pc k) with
    | .error f => ([], some f)
    | .ok v => (v :: (s.fetchOperands (k + 1) count).1, (s.fetchOperands (k + 1) count).2)

/-- IR <- the fetched opcode value (R81). -/
def State.latchOpcode (s : State) (op : Nat) : State := { s with ir := op }

/-- The decoder latches written for an opcode byte and the operands fetched with it (R28, R83, R84). -/
def State.latchDecode (s : State) (op : Byte) (ops : List Nat) : State :=
  { s with latches :=
      { n := (fieldsOf op).n, alu := (fieldsOf op).alu, pcm := (fieldsOf op).pcm, nib := (fieldsOf op).nib, ops := ops } }

/-- How the first half of a cycle ends: with an instruction to execute, with a fault (R176, cases 1 to 3), or with an
OPCODE_MAP that breaks R67. The state has IR and the latches written. -/
inductive Fetched where
  | instr (i : Instr) (s : State)
  | trap (f : Fault) (s : State)
  | badMap (k : Mnemonic)
  deriving DecidableEq, Repr

/-- Opcode fetch, decode, operand fetch and dispatch, in the order of R90 and R176. A PC above 255 cannot occur at a fetch
(R24, R81); if it did, the read would raise `BadAddress(pc)`. -/
def State.fetch (s : State) : Fetched :=
  match s.memRead s.pc with
  | .error f => .trap f s
  | .ok op =>
    if 255 < op then .trap (.unknownOpcode op) (s.latchOpcode op)
    else
      let b := BitVec.ofNat 8 op
      let got := s.fetchOperands 1 (fieldsOf b).n.toNat
      let s' := (s.latchOpcode op).latchDecode b got.1
      match got.2 with
      | some f => .trap f s'
      | none =>
        match dispatch s.config.opcodeMap b got.1 with
        | .ok i => .instr i s'
        | .error (.arityMismatch k) => .badMap k
        | .error _ => .trap (.unknownOpcode op) s'

/-- The cells stored where the next instruction is fetched from: `s.pc` and the operand addresses after it. A cell the
machine cannot fetch (past 255 under `fault`) is not stored. -/
def placeCells (c : Config) (pc : Nat) : Nat → List Nat → Memory → Memory
  | _, [], m => m
  | k, v :: vs, m =>
    placeCells c pc (k + 1) vs (if operandAddr c pc k ≤ 255 then m.write (operandAddr c pc k) v else m)

/-- The state `State.withFetchWord` answers: the word's cells in memory, and the status `running`, without which there is no
fetch (R80). -/
def placeWord (s : State) (nbits w : Nat) : State :=
  { s with mem := placeCells s.config s.pc 0 (cellsOfWord nbits w) s.mem, status := .running }

end Sys2Proof.Machine
end

