-- ==== Sys2Proof/Machine/Step.lean ====
section
/-! DEFINITION. One step of the block (R80, R90): a cycle while the status is running, and no step otherwise. -/

namespace Sys2Proof.Machine

/-- One cycle (R90). `exec` is the handler together with the end of its cycle, the PC advance and clamp of R87 and R89.
Idle and halted machines have no step (R80, D22) and are refused by name; a faulted machine stops with its fault (R179). -/
def step (s : State) : Host.Outcome State Fault Refusal :=
  match s.status with
  | .running =>
    match s.fetch with
    | .instr i s' => exec i s'
    | .trap f s' => raise f s'
    | .badMap k => .refused (.opcodeMapArity k)
  | .idle => .refused .idle
  | .halted => .refused .halted
  | .faulted f => .fault f

/-- `s` with the instruction whose first `nbits` bits are `w` stored where `step` fetches next. -/
def State.withFetchWord (s : State) (nbits w : Nat) : State := placeWord s nbits w

end Sys2Proof.Machine
end

