-- ==== Sys2Proof/Machine/HostMoves.lean ====
section
/-! DEFINITION. What the host does to an instance before its run (70_reset_and_hazards.md, R190 to R196): construct, load,
invoke. During a run it does nothing (R196). -/

namespace Sys2Proof.Machine

/-- REG_INIT (R8, D3): a byte for each of R0 to R6. -/
structure RegInit where
  r0 : Byte
  r1 : Byte
  r2 : Byte
  r3 : Byte
  r4 : Byte
  r5 : Byte
  r6 : Byte
  deriving DecidableEq, Repr

/-- The register file at the start of a run: REG_INIT, and SP = 0xF4 (R37). -/
def RegInit.regs (r : RegInit) : Regs where
  r0 := r.r0.toNat
  r1 := r.r1.toNat
  r2 := r.r2.toNat
  r3 := r.r3.toNat
  r4 := r.r4.toNat
  r5 := r.r5.toNat
  r6 := r.r6.toNat
  r7 := 0xF4

/-- REG_INIT, FLAGS_INIT and MEM_INIT (R8, D3, D4, D6): the values the source leaves open at the start of a run, each a byte
per register or cell. A cell that `memInit` does not reach reads as `Memory.unlisted`. -/
structure StartValues where
  regInit   : RegInit
  flagsInit : Flags
  memInit   : List Byte
  deriving DecidableEq, Repr

/-- The test vectors' values (R8): all zero and all clear. -/
def StartValues.default : StartValues where
  regInit   := { r0 := 0, r1 := 0, r2 := 0, r3 := 0, r4 := 0, r5 := 0, r6 := 0 }
  flagsInit := { e := false, g := false, l := false }
  memInit   := []

/-- Construct one idle instance (R190, R196): every piece of state at its value of R37, no image loaded. IR and the latches
are unspecified (D27) and hold what `State.reset` holds. -/
def construct (c : Config) (v : StartValues) : State where
  regs    := v.regInit.regs
  pc      := 0
  ir      := State.reset.ir
  latches := State.reset.latches
  flags   := v.flagsInit
  status  := .idle
  output  := []
  mem     := Memory.writeBytes [] 0 (v.memInit.take 256)
  config  := c

/-- Load a program image at addresses 0 upward (R193); an image of more than 256 bytes is refused (D20).
DESIGN CHOICE (log 29): the instance stays idle, so a second load is allowed before the invoke. R196 gives one load and is
silent on a second; here it writes over the first, and cells past its own end keep the first image's bytes. -/
def load (image : List Byte) (s : State) : Host.Outcome State Fault Refusal :=
  match s.status with
  | .idle =>
    if image.length ≤ 256 then .next { s with mem := Memory.writeBytes s.mem 0 image }
    else .refused (.imageTooLong image.length)
  | .running | .halted | .faulted _ => .refused .notIdle

/-- Invoke: `Idle` to `Running` (R191).
DESIGN CHOICE (log 30): an instance that was never loaded may be invoked too, and starts with MEM_INIT in every cell. R191 has
a program image in memory at the invocation and is silent on this; `start` always loads, the fallback where no source is
given (R194). -/
def invoke (s : State) : Host.Outcome State Fault Refusal :=
  match s.status with
  | .idle => .next { s with status := .running }
  | .running | .halted | .faulted _ => .refused .notIdle

/-- The built-in fallback program (R194): load 8 into R0, print R0, halt. -/
def fallbackImage : List Byte :=
  [0b10000010#8, 0b00000000#8, 0b00001000#8, 0b01000111#8, 0b00000000#8, 0b00000001#8]

/-- What the host loads when it is given a program source or none (R194). -/
def imageOrFallback (source : Option (List Byte)) : List Byte := source.getD fallbackImage

/-- Construct, load and invoke (R190 to R196): the state a program's run starts from, or a refusal. -/
def start (c : Config) (v : StartValues) (source : Option (List Byte)) : Host.Outcome State Fault Refusal :=
  match load (imageOrFallback source) (construct c v) with
  | .next s => invoke s
  | .fault f => .fault f
  | .refused r => .refused r

end Sys2Proof.Machine
end

