-- ==== Sys2Proof/Safety.lean ====
section
/-! DEFINITION. What claims are stated in: the invariant of a machine, the end of a run, a run, and what an instruction
leaves unchanged. -/

namespace Sys2Proof.Machine

/-! ### The invariant -/

/-- Every register, cell and emitted value is in 0..255: what `strict8` mode guarantees (R10, R20, R42). -/
structure State.EightBit (s : State) : Prop where
  regs   : ∀ i : Fin 8, s.reg i ≤ 255
  cells  : ∀ a : Nat, s.mem.read a ≤ 255
  output : ∀ v ∈ s.output, v ≤ 255

/-- What holds of a machine between cycles: memory in canonical form (R40), PC in 0..255 (R24), an OPCODE_MAP that meets R67,
at most `n` operands in the latches (R28), and 8-bit values throughout in `strict8` mode (R10). -/
structure State.Inv (s : State) : Prop where
  memory   : s.mem.WF
  pc       : s.pc ≤ 255
  map      : s.config.opcodeMap.Valid
  operands : s.latches.ops.length ≤ s.latches.n.toNat
  eightBit : s.config.arithMode = .strict8 → s.EightBit

/-! ### Runs -/

/-- The ends of a run (R93): halted is the normal one, faulted the source's fatal termination. -/
def Status.ended : Status → Bool
  | .halted | .faulted _ => true
  | .idle | .running => false

/-- `Run s t`: some number of steps lead from `s` to `t` (R92). -/
inductive Run : State → State → Prop where
  | refl (s : State) : Run s s
  | cons {s t u : State} : step s = .next t → Run t u → Run s u

/-! ### What is left unchanged -/

/-- Every register outside `w` reads as before. -/
def KeepsRegs (w : List (Fin 8)) (s t : State) : Prop := ∀ j : Fin 8, j ∉ w → t.reg j = s.reg j

/-- Every address reads as before. -/
def KeepsMem (s t : State) : Prop := ∀ b : Nat, t.mem.read b = s.mem.read b

/-- Every address but `a` reads as before. -/
def KeepsMemBut (a : Nat) (s t : State) : Prop := ∀ b : Nat, b ≠ a → t.mem.read b = s.mem.read b

/-- The state no instruction writes: IR, the decoder latches and the parameters. -/
def KeepsCycle (s t : State) : Prop := t.ir = s.ir ∧ t.latches = s.latches ∧ t.config = s.config

/-- A fault's next state (R178): the status is `faulted f` and nothing else has changed. -/
def FaultsWith (i : Instr) (s : State) (f : Fault) : Prop := exec i s = .next { s with status := .faulted f }

/-- What a register-only instruction leaves unchanged: every register outside `w`, all memory, the flags, the output, the
status, and what no instruction writes. -/
def RegisterFrame (w : List (Fin 8)) (s t : State) : Prop :=
  KeepsRegs w s t ∧ KeepsMem s t ∧ t.flags = s.flags ∧ t.output = s.output ∧ t.status = s.status ∧ KeepsCycle s t

/-- The registers an instruction may write (R21, R22): its named destination, and SP for PUSH, POP, CALL and RET. -/
def regsWritten : Instr → List Nat
  | .ldi rA _ | .ld rA _ | .add rA _ | .mul rA _ | .and rA _ | .inc rA | .dec rA => [rA]
  | .pop rA => [rA, 7]
  | .push _ | .call _ | .ret => [7]
  | .hlt | .prn _ | .nop | .cmp _ _ => []
  | .jmp _ | .jeq _ | .jne _ | .jgt _ | .jlt _ | .jle _ | .jge _ => []

/-- A conditional jump that tests `taken` (R147): on an index, PC becomes the register when the test holds and `pc + 2`
when it does not, both clamped, and nothing else changes; on no index it faults, taken or not. -/
def JumpsWhen (jump : Nat → Instr) (taken : Flags → Bool) : Prop :=
  (∀ (s : State) (a : Fin 8), ∃ t, exec (jump a.val) s = .next t
      ∧ t.pc = clamp ((if taken s.flags then s.reg a else s.pc + 2 : Nat) : Int) ∧ RegisterFrame [] s t)
  ∧ ∀ (s : State) (r : Nat), 8 ≤ r → FaultsWith (jump r) s (.badRegister r)

/-- What ARITH_MODE stores for a value (R7, D19). -/
def stored (mode : ArithMode) (v : Nat) : Nat := if mode = .strict8 then v % 256 else v

/-- A two-register arithmetic instruction that computes `op` (R121 to R123, R129): on two indices `a` becomes `op` of the two
old values as ARITH_MODE stores it, PC moves by 3, nothing else changes; on no index it faults, operand 1 first. -/
def BinaryResult (mk : Nat → Nat → Instr) (op : Nat → Nat → Nat) : Prop :=
  (∀ (s : State) (a b : Fin 8), ∃ t, exec (mk a b) s = .next t
      ∧ t.reg a = stored s.config.arithMode (op (s.reg a) (s.reg b))
      ∧ t.pc = clamp ((s.pc + 3 : Nat) : Int) ∧ RegisterFrame [a] s t)
  ∧ (∀ (s : State) (rA rB : Nat), 8 ≤ rA → FaultsWith (mk rA rB) s (.badRegister rA))
  ∧ ∀ (s : State) (a : Fin 8) (rB : Nat), 8 ≤ rB → FaultsWith (mk a rB) s (.badRegister rB)

/-! ### The instruction at PC -/

/-- The value of the opcode cell. -/
def State.opcode (s : State) : Nat := s.mem.read s.pc

/-- The operand count in the opcode's bits 7:6. -/
def State.operandCount (s : State) : Nat := s.opcode % 256 / 64

/-- The operand cells after the opcode, an address above 255 taken less 256. -/
def State.operandCells (s : State) : List Nat :=
  (List.range s.operandCount).map
    (fun k => s.mem.read (if s.pc + 1 + k ≤ 255 then s.pc + 1 + k else s.pc + 1 + k - 256))

/-- No operand fetch faults (R84): the operands end by address 255, or the fetch wraps. -/
def State.operandsReachable (s : State) : Prop :=
  s.pc + s.operandCount ≤ 255 ∨ s.config.operandFetchAtTop = .wrap

/-- The address of the data cell an instruction reads, if it reads one (R41): LD's through its second register, POP's and
RET's the stack pointer. -/
def dataAddress (s : State) : Instr → Option Nat
  | .ld _ rB => if h : rB < 8 then some (s.reg ⟨rB, h⟩) else none
  | .pop _ | .ret => some (s.reg 7)
  | .hlt | .ldi _ _ | .prn _ | .nop | .push _ | .call _ => none
  | .jmp _ | .jeq _ | .jne _ | .jgt _ | .jlt _ | .jle _ | .jge _ => none
  | .add _ _ | .mul _ _ | .cmp _ _ | .and _ _ | .inc _ | .dec _ => none

/-- The fault a cycle raises, in the order of R176: the opcode cell above 255; an operand fetch past 255, whose first such
address is 256; a byte that is no row of the map; a register operand, the first before the second; the data address. -/
def firstFault (s : State) : Option Fault :=
  if 255 < s.opcode then some (.unknownOpcode s.opcode)
  else if s.config.operandFetchAtTop = .fault ∧ 255 < s.pc + s.operandCount then some (.badAddress 256)
  else
    match s.config.opcodeMap.lookup (BitVec.ofNat 8 s.opcode) with
    | none => some (.unknownOpcode s.opcode)
    | some k =>
      match Instr.assemble k s.operandCells with
      | none => none
      | some i =>
        match i.regOperands.find? (fun r => decide (8 ≤ r)) with
        | some r => some (.badRegister r)
        | none =>
          match dataAddress s i with
          | some a => if 255 < a then some (.badAddress a) else none
          | none => none

/-! ### What a program can observe -/

/-- The state with IR and the decoder latches blanked: all that a program can observe (R28, R36). -/
def State.observable (s : State) : State :=
  { s with ir := 0, latches := { n := 0, alu := false, pcm := false, nib := 0, ops := [] } }

end Sys2Proof.Machine
end

