-- ==== Sys2Proof/Certificates/Slice0/Obligations.lean ====
section
/-! DEFINITION. The statements about the machine, each one formalising the rules of spec/ its docstring names. The `exec` and
`step` statements hold for both values of ARITH_MODE and OPERAND_FETCH_AT_TOP unless they say otherwise. -/

section
open Sys2Proof Sys2Proof.Machine

/-- Round trip of R60, R62, R66 under every map of R67: no operand is dropped or swapped, and no opcode is taken for another. -/
def Obligations.DecodeOfEncodeIsTheInstruction : Prop :=
  ∀ m : OpcodeMap, m.Valid → ∀ (i : Instr) (rest : List Nat), decode m (encode m i ++ rest) = .ok (i, rest)

/-- The other direction of the round trip (R60, R62, R64): every encoding has one meaning. -/
def Obligations.EncodeOfDecodeIsTheCells : Prop :=
  ∀ (m : OpcodeMap) (cells : List Nat) (i : Instr) (rest : List Nat),
    decode m cells = .ok (i, rest) → encode m i ++ rest = cells

/-- The examples of R100 to R151 and the absent opcodes of R68, as words of the table. Rests on the default map (log 2). -/
def Obligations.SpecWordsDecode : Prop :=
  decodeTableWord 8 0x01 = some .hlt ∧ decodeTableWord 24 0x080082 = some (.ldi 0 8)
  ∧ decodeTableWord 24 0x020183 = some (.ld 1 2) ∧ decodeTableWord 16 0x0047 = some (.prn 0)
  ∧ decodeTableWord 16 0x0145 = some (.push 1) ∧ decodeTableWord 16 0x0150 = some (.call 1)
  ∧ decodeTableWord 8 0x11 = some .ret ∧ decodeTableWord 16 0x0258 = some (.jlt 2)
  ∧ decodeTableWord 24 0x0100A7 = some (.cmp 0 1) ∧ decodeTableWord 16 0x0065 = some (.inc 0)
  ∧ decodeTableWord 8 0x02 = none ∧ decodeTableWord 16 0x0048 = none ∧ decodeTableWord 8 0xC0 = none

/-- R67 for the table of R66, and the count in R68. The 19 byte values are PRESUMED (log 2). -/
def Obligations.DefaultMapMeetsItsConstraints : Prop :=
  OpcodeMap.default.Valid
  ∧ ((List.range 256).filter (fun v => (OpcodeMap.default.lookup (BitVec.ofNat 8 v)).isNone)).length = 234

/-- R60: format and length of an instruction. -/
def Obligations.OpcodeByteFixesTheLength : Prop :=
  ∀ m : OpcodeMap, m.Valid → ∀ (op : Nat) (cells rest : List Nat) (i : Instr), decode m (op :: cells) = .ok (i, rest) →
    op ≤ 255 ∧ op / 64 ≤ 2 ∧ i.operands = cells.take (op / 64) ∧ rest = cells.drop (op / 64)
    ∧ (encode m i).length = 1 + op / 64

/-- The bits of R61, by arithmetic on the byte's value. -/
def Obligations.FieldsOfTheOpcodeByte : Prop :=
  ∀ b : Byte, (fieldsOf b).n.toNat = b.toNat / 64 ∧ (fieldsOf b).alu = decide (b.toNat / 32 % 2 = 1)
    ∧ (fieldsOf b).pcm = decide (b.toNat / 16 % 2 = 1) ∧ (fieldsOf b).nib.toNat = b.toNat % 16

/-- The cycle of R90: what stands around exec is the write of IR and the latches. That the PC advance and clamp of R87 and R89 are in exec is the model's choice (log 15, DEDUCED); the operand cells read under wrap are R84's decision D9 (log 8). -/
def Obligations.StepRunsTheDecodedInstruction : Prop :=
  ∀ (s : State) (i : Instr), s.status = .running → s.pc ≤ 255 → s.operandsReachable →
    decode s.config.opcodeMap (s.opcode :: s.operandCells) = .ok (i, []) →
    step s = exec i ((s.latchOpcode s.opcode).latchDecode (BitVec.ofNat 8 s.opcode) i.operands)

/-- R80, which carries the spec's own decisions D16 and D22. That no running machine is refused is the 'if'. That invoke takes an instance never loaded too is the model's choice (log 30). -/
def Obligations.OnlyARunningMachineSteps : Prop :=
  (∀ s : State, s.config.opcodeMap.Valid → ((∃ t, step s = .next t) ↔ s.status = .running))
  ∧ (∀ s t : State, s.status.ended = true → Run s t → t = s)
  ∧ (∀ s : State, s.status = .idle → invoke s = .next { s with status := .running })

/-- The model's choice (log 10) for 'there is no step' of R80. -/
def Obligations.StoppedMachinesAnswerTheirStop : Prop :=
  ∀ s : State, (s.status = .idle → step s = .refused .idle) ∧ (s.status = .halted → step s = .refused .halted)
    ∧ ∀ f, s.status = .faulted f → step s = .fault f

/-- R70 and R82: the spec's own decision D18 (log 17). That a fault changes nothing else is its D16 (log 9). -/
def Obligations.OpcodeCellAbove255FaultsAtOnce : Prop :=
  ∀ s : State, s.status = .running → s.pc ≤ 255 → 255 < s.opcode →
    step s = .next { s with ir := s.opcode, status := .faulted (.unknownOpcode s.opcode) }

/-- R84, for recognised and unrecognised opcodes alike: the spec's own decision D9 (log 8). -/
def Obligations.OperandFetchPastTheTop : Prop :=
  (∀ s : State, s.pc ≤ 255 → s.operandsReachable → s.fetchOperands 1 s.operandCount = (s.operandCells, none))
  ∧ ∀ s : State, s.status = .running → s.pc ≤ 255 → s.opcode ≤ 255 → s.config.operandFetchAtTop = .fault →
      255 < s.pc + s.operandCount →
      ∃ t, step s = .next t ∧ t.status = .faulted (.badAddress 256)
        ∧ t.latches.ops = (List.range (255 - s.pc)).map (fun k => s.mem.read (s.pc + 1 + k))

/-- R85, with the handlers of R86. That the fault changes only IR, the latches and the status is R178's, the spec's own decision D16 (log 9); the operands fetched under wrap are its D9 (log 8). -/
def Obligations.DispatchKeysOnTheFullByte : Prop :=
  ∀ s : State, s.status = .running → s.config.opcodeMap.Valid → s.pc ≤ 255 → s.opcode ≤ 255 → s.operandsReachable →
    ((∀ k, (s.config.opcodeMap.code k).toNat ≠ s.opcode) →
      ∃ r l, step s = .next { s with ir := r, latches := l, status := .faulted (.unknownOpcode s.opcode) })
    ∧ ∀ k, (s.config.opcodeMap.code k).toNat = s.opcode →
      ∃ i s', i.mnemonic = k ∧ i.operands = s.operandCells ∧ s'.observable = s.observable ∧ step s = exec i s'

/-- R69, which the spec marks as its own inference, with decision D9 for the fetch past 255 (log 8). -/
def Obligations.CountThreeIsNeverRecognised : Prop :=
  ∀ s : State, s.status = .running → s.config.opcodeMap.Valid → s.pc ≤ 255 → s.opcode ≤ 255 → s.opcode / 64 = 3 →
    ∃ t, step s = .next t
      ∧ (s.operandsReachable → t.status = .faulted (.unknownOpcode s.opcode) ∧ t.latches.ops = s.operandCells
          ∧ t.latches.ops.length = 3)
      ∧ (¬ s.operandsReachable → t.status = .faulted (.badAddress 256))

/-- R91 over all instructions with pcm = 0: the spec's own inference from R84, R87 and R89 (decision D13, log 14). -/
def Obligations.SequentialAdvanceIsClamped : Prop :=
  ∀ s t : State, s.status = .running → s.config.opcodeMap.Valid → s.pc ≤ 255 → step s = .next t → t.status = .running →
    s.opcode / 16 % 2 = 0 →
    t.pc = clamp ((s.pc + 1 + s.operandCount : Nat) : Int)
    ∧ (s.config.operandFetchAtTop = .fault → s.pc + 1 + s.operandCount ≤ 256)

/-- R176: the whole fault behaviour of the machine as one specification, firstFault. The order is the spec's own decision D17, the faults its D7, D8, D9 and D18 (log 8, 11, 12, 17, 20). -/
def Obligations.FirstFaultInOrderIsRaised : Prop :=
  ∀ s : State, s.status = .running → s.config.opcodeMap.Valid → s.pc ≤ 255 →
    ∃ t, step s = .next t ∧ ∀ f, t.status = .faulted f ↔ firstFault s = some f

/-- R10, R20, R24, R28, R42, R67 as one inductive invariant. -/
def Obligations.EveryStepKeepsMachineInvariant : Prop :=
  ∀ s t : State, s.Inv → step s = .next t → t.Inv

/-- The base of the invariant. Rests on the reset values of log 2 to 8. -/
def Obligations.ResetMeetsMachineInvariant : Prop :=
  State.reset.Inv

/-- The base of the invariant for every start of R191 to R194. -/
def Obligations.EveryStartMeetsMachineInvariant : Prop :=
  ∀ (c : Config) (v : StartValues) (source : Option (List Byte)) (t : State),
    c.opcodeMap.Valid → start c v source = .next t → t.Inv

/-- R24 and the strict8 part of R20 and R42, for every program at once. -/
def Obligations.EveryRunStaysWithinTheInvariant : Prop :=
  ∀ (c : Config) (v : StartValues) (source : Option (List Byte)) (s t : State),
    c.opcodeMap.Valid → start c v source = .next s → Run s t → t.Inv

/-- R94. -/
def Obligations.DispatchTableIsFixedForTheRun : Prop :=
  ∀ s t : State, Run s t → t.config = s.config

/-- The derived sentence of R30, as an invariant and its establishment. -/
def Obligations.OneFlagStaysSet : Prop :=
  (∀ s t : State, s.flags.oneHot = true → step s = .next t → t.flags.oneHot = true)
  ∧ ∀ (s : State) (a b : Fin 8), ∃ t, exec (.cmp a b) s = .next t ∧ t.flags.oneHot = true

/-- R125. -/
def Obligations.FlagsChangeOnlyByCmp : Prop :=
  ∀ s t : State, step s = .next t → t.flags = s.flags ∨
    ∃ (a b : Fin 8) (s' : State), s.fetch = .instr (.cmp a b) s' ∧
      (t.flags = ⟨true, false, false⟩ ∨ t.flags = ⟨false, true, false⟩ ∨ t.flags = ⟨false, false, true⟩)

/-- The writing rows of R41: there is no other store instruction. -/
def Obligations.MemoryChangesOnlyByPushAndCall : Prop :=
  ∀ s t : State, step s = .next t → t.mem = s.mem ∨
    ∃ (a : Fin 8) (s' : State), s.fetch = .instr (.push a) s' ∨ s.fetch = .instr (.call a) s'

/-- R33 and R106. -/
def Obligations.OutputGrowsOnlyByPrn : Prop :=
  ∀ s t : State, step s = .next t → t.output = s.output ∨
    ∃ (a : Fin 8) (s' : State), s.fetch = .instr (.prn a) s' ∧ t.output = s.output ++ [s.reg a]

/-- The lists of R21 and R22, over all instructions. -/
def Obligations.RegistersChangeOnlyAsNamed : Prop :=
  ∀ (i : Instr) (s t : State) (j : Fin 8), exec i s = .next t → t.reg j ≠ s.reg j → j.val ∈ regsWritten i

/-- R178: the spec's own decision D16 (log 9). -/
def Obligations.FaultsArePrecise : Prop :=
  ∀ (s t : State) (f : Fault), step s = .next t → t.status = .faulted f →
    t = { s with ir := t.ir, latches := t.latches, status := .faulted f } ∧ (s.pc ≤ 255 → t.ir = s.opcode)

/-- R88 and R172, for all instructions: LDI's immediate is not checked, and a data address is not looked at first. The spec's own decisions D7 and D17 (log 11). That a fault changes nothing else is its D16 (log 9). -/
def Obligations.BadRegisterIsCheckedFirst : Prop :=
  (∀ (i : Instr) (s : State) (r : Nat), i.regOperands.find? (fun x => decide (8 ≤ x)) = some r →
      FaultsWith i s (.badRegister r))
  ∧ ∀ (i : Instr) (s t : State) (r : Nat), s.status = .running → exec i s = .next t →
      t.status = .faulted (.badRegister r) → i.regOperands.find? (fun x => decide (8 ≤ x)) = some r

/-- R173 and R130: unreachable in that no step raises its fault. That the additive operation does what ADD does is the spec's own decision D23, what strict8 stores its D19, that the fault changes only the status its D16 (log 23, 19, 9). Which string names the additive operation, and that PC does not move, are the model's choices (log 23, PRESUMED), and neither is stated. -/
def Obligations.GenericAluIsUnreachable : Prop :=
  (∃ additive : String,
    (∀ (s : State) (a b : Fin 8), ∃ t, genericAlu additive a b s = .next t
      ∧ t.reg a = stored s.config.arithMode (s.reg a + s.reg b) ∧ RegisterFrame [a] s t)
    ∧ ∀ (name : String) (rA rB : Nat) (s : State), name ≠ additive →
        genericAlu name rA rB s = .next { s with status := .faulted (.unsupportedAluOp name) })
  ∧ ∀ (s t : State) (name : String), step s = .next t → t.status ≠ .faulted (.unsupportedAluOp name)

/-- R100. -/
def Obligations.HltHaltsInPlace : Prop :=
  encode OpcodeMap.default .hlt = [0x01] ∧
  ∀ s : State, ∃ t, exec .hlt s = .next t ∧ t.status = .halted ∧ t.pc = s.pc ∧ KeepsRegs [] s t ∧ KeepsMem s t
    ∧ t.flags = s.flags ∧ t.output = s.output ∧ KeepsCycle s t ∧ ∀ u, step t ≠ .next u

/-- R104. The byte 0x00 is the default map's, PRESUMED (D1, log 2); the PC clamp is the spec's own decision D13 (log 14). -/
def Obligations.NopOnlyAdvances : Prop :=
  encode OpcodeMap.default .nop = [0x00] ∧
  ∀ s : State, ∃ t, exec .nop s = .next t ∧ t.pc = clamp ((s.pc + 1 : Nat) : Int) ∧ RegisterFrame [] s t

/-- R101. What strict8 stores is the spec's own decision D19 (log 19), the fault its D7 (log 11). The PC clamp is its D13 (log 14). That a fault changes nothing else is its D16 (log 9). -/
def Obligations.LdiLoadsTheImmediate : Prop :=
  (∀ rA v : Nat, encode OpcodeMap.default (.ldi rA v) = [0x82, rA, v])
  ∧ (∀ (s : State) (a : Fin 8) (v : Nat), ∃ t, exec (.ldi a v) s = .next t
      ∧ t.reg a = stored s.config.arithMode v ∧ t.pc = clamp ((s.pc + 3 : Nat) : Int) ∧ RegisterFrame [a] s t)
  ∧ ∀ (s : State) (r v : Nat), 8 ≤ r → FaultsWith (.ldi r v) s (.badRegister r)

/-- R102. The byte 0x83 is the default map's (D1, log 2), the faults the spec's own decisions D7 and D8 (log 11, 12). The PC clamp is its D13 (log 14). That a fault changes nothing else is its D16 (log 9). -/
def Obligations.LdLoadsTheCell : Prop :=
  (∀ rA rB : Nat, encode OpcodeMap.default (.ld rA rB) = [0x83, rA, rB])
  ∧ (∀ (s : State) (a b : Fin 8), s.reg b ≤ 255 → ∃ t, exec (.ld a b) s = .next t
      ∧ t.reg a = s.mem.read (s.reg b) ∧ t.pc = clamp ((s.pc + 3 : Nat) : Int) ∧ RegisterFrame [a] s t)
  ∧ (∀ (s : State) (a b : Fin 8), 255 < s.reg b → FaultsWith (.ld a b) s (.badAddress (s.reg b)))
  ∧ (∀ (s : State) (rA rB : Nat), 8 ≤ rA → FaultsWith (.ld rA rB) s (.badRegister rA))
  ∧ ∀ (s : State) (a : Fin 8) (rB : Nat), 8 ≤ rB → FaultsWith (.ld a rB) s (.badRegister rB)

/-- R103. The PC clamp and the fault are the spec's own decisions D13 and D7 (log 14, 11). That a fault changes nothing else is its D16 (log 9). -/
def Obligations.PrnEmitsTheRegister : Prop :=
  (∀ rA : Nat, encode OpcodeMap.default (.prn rA) = [0x47, rA])
  ∧ (∀ (s : State) (a : Fin 8), ∃ t, exec (.prn a) s = .next t ∧ t.output = s.output ++ [s.reg a]
      ∧ t.pc = clamp ((s.pc + 2 : Nat) : Int) ∧ KeepsRegs [] s t ∧ KeepsMem s t ∧ t.flags = s.flags
      ∧ t.status = s.status ∧ KeepsCycle s t)
  ∧ ∀ (s : State) (r : Nat), 8 ≤ r → FaultsWith (.prn r) s (.badRegister r)

/-- Property W4a of the source, from R101 and R103. -/
def Obligations.LdiThenPrnEmitsTheByte : Prop :=
  ∀ (s : State) (a : Fin 8) (v : Nat), v ≤ 255 →
    ∃ s1 s2, exec (.ldi a v) s = .next s1 ∧ exec (.prn a) s1 = .next s2 ∧ s2.output = s.output ++ [v]

/-- R121, R122, R123 and R129. The bytes are the default map's (D1, log 2), what strict8 stores is the spec's own decision D19 (log 19), the fault its D7 (log 11). The PC clamp is its D13 (log 14). That a fault changes nothing else is its D16 (log 9). -/
def Obligations.AddMulAndResults : Prop :=
  (∀ rA rB : Nat, encode OpcodeMap.default (.add rA rB) = [0xA0, rA, rB]
      ∧ encode OpcodeMap.default (.mul rA rB) = [0xA2, rA, rB] ∧ encode OpcodeMap.default (.and rA rB) = [0xA8, rA, rB])
  ∧ BinaryResult Instr.add (fun x y => x + y) ∧ BinaryResult Instr.mul (fun x y => x * y)
  ∧ BinaryResult Instr.and (fun x y => x &&& y)

/-- R124. The byte 0xA7 is the default map's (D1, log 2), the fault the spec's own decision D7 (log 11). The PC clamp is its D13 (log 14). That a fault changes nothing else is its D16 (log 9). -/
def Obligations.CmpSetsExactlyOneFlag : Prop :=
  (∀ rA rB : Nat, encode OpcodeMap.default (.cmp rA rB) = [0xA7, rA, rB])
  ∧ (∀ (s : State) (a b : Fin 8), ∃ t, exec (.cmp a b) s = .next t
      ∧ (s.reg a = s.reg b → t.flags = ⟨true, false, false⟩) ∧ (s.reg a < s.reg b → t.flags = ⟨false, false, true⟩)
      ∧ (s.reg b < s.reg a → t.flags = ⟨false, true, false⟩) ∧ t.pc = clamp ((s.pc + 3 : Nat) : Int)
      ∧ KeepsRegs [] s t ∧ KeepsMem s t ∧ t.output = s.output ∧ t.status = s.status ∧ KeepsCycle s t)
  ∧ (∀ (s : State) (rA rB : Nat), 8 ≤ rA → FaultsWith (.cmp rA rB) s (.badRegister rA))
  ∧ ∀ (s : State) (a : Fin 8) (rB : Nat), 8 ≤ rB → FaultsWith (.cmp a rB) s (.badRegister rB)

/-- R126 and R127, the clamp spelled out. The bytes are the default map's (D1, log 2), the fault the spec's own decision D7 (log 11). The PC clamp is its D13 (log 14). That a fault changes nothing else is its D16 (log 9). -/
def Obligations.IncDecAreClamped : Prop :=
  (∀ rA : Nat, encode OpcodeMap.default (.inc rA) = [0x65, rA] ∧ encode OpcodeMap.default (.dec rA) = [0x66, rA])
  ∧ (∀ (s : State) (a : Fin 8), ∃ t, exec (.inc a) s = .next t
      ∧ t.reg a = (if 255 ≤ s.reg a then 0 else s.reg a + 1)
      ∧ t.pc = clamp ((s.pc + 2 : Nat) : Int) ∧ RegisterFrame [a] s t)
  ∧ (∀ (s : State) (a : Fin 8), ∃ t, exec (.dec a) s = .next t
      ∧ t.reg a = (if s.reg a = 0 then 255 else if s.reg a ≤ 256 then s.reg a - 1 else 0)
      ∧ t.pc = clamp ((s.pc + 2 : Nat) : Int) ∧ RegisterFrame [a] s t)
  ∧ ∀ (s : State) (r : Nat), 8 ≤ r →
      FaultsWith (.inc r) s (.badRegister r) ∧ FaultsWith (.dec r) s (.badRegister r)

/-- Property W4e of the source with the restriction of conflict C4, from R126 and R127. -/
def Obligations.IncThenDecRestoresBytes : Prop :=
  ∀ (s : State) (a : Fin 8), ∃ s1 s2, exec (.inc a) s = .next s1 ∧ exec (.dec a) s1 = .next s2
    ∧ (s.reg a ≤ 255 → s2.reg a = s.reg a) ∧ (255 < s.reg a → s2.reg a = 255)

/-- R11, whose agreement with mod 256 is the spec's own inference, and R12's mask8, the spec's own decision D19 (log 19). -/
def Obligations.ClampAndMaskValues : Prop :=
  (∀ x : Int, (x < 0 → clamp x = 255) ∧ (255 < x → clamp x = 0) ∧ (0 ≤ x → x ≤ 255 → (clamp x : Int) = x)
      ∧ (-1 ≤ x → x ≤ 256 → (clamp x : Int) = x % 256))
  ∧ ∀ x : Nat, mask8 x = x % 256

/-- R141. The byte 0x45 is the default map's (D1, log 2); PUSH R7, what strict8 stores and the fault are the spec's own decisions D10, D19 and D7 (log 13, 19, 11). The PC clamp is its D13 (log 14). That a fault changes nothing else is its D16 (log 9). -/
def Obligations.PushStoresAtTheNewTop : Prop :=
  (∀ rA : Nat, encode OpcodeMap.default (.push rA) = [0x45, rA])
  ∧ (∀ (s : State) (a : Fin 8), ∃ t, exec (.push a) s = .next t
      ∧ t.sp = clamp ((s.sp : Int) - 1) ∧ KeepsRegs [7] s t
      ∧ (s.mem.WF → t.mem.read (clamp ((s.sp : Int) - 1)) =
            stored s.config.arithMode (if a = 7 then clamp ((s.sp : Int) - 1) else s.reg a)
          ∧ KeepsMemBut (clamp ((s.sp : Int) - 1)) s t)
      ∧ t.pc = clamp ((s.pc + 2 : Nat) : Int) ∧ t.flags = s.flags ∧ t.output = s.output ∧ t.status = s.status
      ∧ KeepsCycle s t)
  ∧ ∀ (s : State) (r : Nat), 8 ≤ r → FaultsWith (.push r) s (.badRegister r)

/-- R142. The byte 0x46 is the default map's (D1, log 2); POP R7 and the faults are the spec's own decisions D11, D7 and D8 (log 13, 11, 12). The PC clamp is its D13 (log 14). That a fault changes nothing else is its D16 (log 9). -/
def Obligations.PopLoadsTheTop : Prop :=
  (∀ rA : Nat, encode OpcodeMap.default (.pop rA) = [0x46, rA])
  ∧ (∀ (s : State) (a : Fin 8), s.sp ≤ 255 → ∃ t, exec (.pop a) s = .next t
      ∧ (a ≠ 7 → t.reg a = s.mem.read s.sp ∧ t.sp = clamp ((s.sp : Int) + 1))
      ∧ (a = 7 → t.sp = clamp ((s.mem.read s.sp : Int) + 1))
      ∧ t.pc = clamp ((s.pc + 2 : Nat) : Int) ∧ RegisterFrame [a, 7] s t)
  ∧ (∀ (s : State) (a : Fin 8), 255 < s.sp → FaultsWith (.pop a) s (.badAddress s.sp))
  ∧ ∀ (s : State) (r : Nat), 8 ≤ r → FaultsWith (.pop r) s (.badRegister r)

/-- R144. The byte 0x50 is the default map's (D1, log 2); CALL R7, what strict8 stores, the PC clamp and the fault are the spec's own decisions D12, D19, D13 and D7 (log 13, 19, 14, 11). That a fault changes nothing else is its D16 (log 9). -/
def Obligations.CallPushesAndJumps : Prop :=
  (∀ rA : Nat, encode OpcodeMap.default (.call rA) = [0x50, rA])
  ∧ (∀ (s : State) (a : Fin 8), ∃ t, exec (.call a) s = .next t
      ∧ t.sp = clamp ((s.sp : Int) - 1) ∧ KeepsRegs [7] s t
      ∧ (s.mem.WF → t.mem.read (clamp ((s.sp : Int) - 1)) = stored s.config.arithMode (s.pc + 2)
          ∧ KeepsMemBut (clamp ((s.sp : Int) - 1)) s t)
      ∧ t.pc = (if a = 7 then clamp ((s.sp : Int) - 1) else clamp (s.reg a : Int))
      ∧ t.flags = s.flags ∧ t.output = s.output ∧ t.status = s.status ∧ KeepsCycle s t)
  ∧ ∀ (s : State) (r : Nat), 8 ≤ r → FaultsWith (.call r) s (.badRegister r)

/-- R145. The byte 0x11 is the default map's (D1, log 2); the PC clamp and the fault are the spec's own decisions D13 and D8 (log 14, 12). That a fault changes nothing else is its D16 (log 9). -/
def Obligations.RetPopsIntoPc : Prop :=
  encode OpcodeMap.default .ret = [0x11]
  ∧ (∀ s : State, s.sp ≤ 255 → ∃ t, exec .ret s = .next t ∧ t.pc = clamp (s.mem.read s.sp : Int)
      ∧ t.sp = clamp ((s.sp : Int) + 1) ∧ RegisterFrame [7] s t)
  ∧ ∀ s : State, 255 < s.sp → FaultsWith .ret s (.badAddress s.sp)

/-- The law of R143, in both modes. What strict8 stores is the spec's own decision D19 (log 19). -/
def Obligations.PushThenPopRestores : Prop :=
  ∀ (s : State) (a b : Fin 8), a ≠ 7 → b ≠ 7 → s.sp ≤ 255 → s.mem.WF →
    ∃ s1 s2, exec (.push a) s = .next s1 ∧ exec (.pop b) s1 = .next s2
      ∧ s2.reg b = stored s.config.arithMode (s.reg a) ∧ s2.sp = s.sp
      ∧ s2.mem.read s1.sp = stored s.config.arithMode (s.reg a)

/-- Property W4c of the source (R155), from R144 and R145. That a call at 254 resumes at 0 rests on the spec's own decision D13 for the PC clamp (log 14), and in strict8 on its D19 for the cell pushed (log 19). -/
def Obligations.CallThenRetResumes : Prop :=
  ∀ (s : State) (a : Fin 8), s.sp ≤ 255 → s.mem.WF → ∃ s1, exec (.call a) s = .next s1
    ∧ ∀ u : State, u.sp = s1.sp → u.mem.read u.sp = s1.mem.read s1.sp →
      ∃ t, exec .ret u = .next t ∧ t.sp = s.sp ∧ (s.pc ≤ 253 → t.pc = s.pc + 2) ∧ (s.pc = 254 → t.pc = 0)

/-- R146. The byte 0x54 is the default map's (D1, log 2); the PC clamp and the fault are the spec's own decisions D13 and D7 (log 14, 11). That a fault changes nothing else is its D16 (log 9). -/
def Obligations.JmpGoesToTheRegister : Prop :=
  (∀ rA : Nat, encode OpcodeMap.default (.jmp rA) = [0x54, rA])
  ∧ (∀ (s : State) (a : Fin 8), ∃ t, exec (.jmp a) s = .next t ∧ t.pc = clamp (s.reg a : Int) ∧ RegisterFrame [] s t)
  ∧ ∀ (s : State) (r : Nat), 8 ≤ r → FaultsWith (.jmp r) s (.badRegister r)

/-- R147's first table and its one form, R148 to R154. The bytes are the default map's (D1, log 2); the PC clamp and the fault are the spec's own decisions D13 and D7 (log 14, 11). That a fault changes nothing else is its D16 (log 9). -/
def Obligations.ConditionalJumpsFollowTheFlags : Prop :=
  (∀ rA : Nat, encode OpcodeMap.default (.jeq rA) = [0x55, rA] ∧ encode OpcodeMap.default (.jne rA) = [0x56, rA]
      ∧ encode OpcodeMap.default (.jgt rA) = [0x57, rA] ∧ encode OpcodeMap.default (.jlt rA) = [0x58, rA]
      ∧ encode OpcodeMap.default (.jle rA) = [0x59, rA] ∧ encode OpcodeMap.default (.jge rA) = [0x5A, rA])
  ∧ JumpsWhen Instr.jeq (fun f => f.e) ∧ JumpsWhen Instr.jne (fun f => !f.e) ∧ JumpsWhen Instr.jgt (fun f => f.g)
  ∧ JumpsWhen Instr.jlt (fun f => f.l) ∧ JumpsWhen Instr.jge (fun f => f.e || f.g)
  ∧ JumpsWhen Instr.jle (fun f => f.e || f.l)

/-- R147's second table and property W4d of the source, from R124 and R147. The PC clamp is the spec's own decision D13 (log 14). -/
def Obligations.JumpsAfterCmpCompareTheValues : Prop :=
  ∀ (s : State) (a b c : Fin 8), ∃ s1, exec (.cmp a b) s = .next s1
    ∧ (∃ t, exec (.jeq c) s1 = .next t ∧ t.pc = clamp ((if s.reg a = s.reg b then s.reg c else s1.pc + 2 : Nat) : Int))
    ∧ (∃ t, exec (.jne c) s1 = .next t ∧ t.pc = clamp ((if s.reg a ≠ s.reg b then s.reg c else s1.pc + 2 : Nat) : Int))
    ∧ (∃ t, exec (.jgt c) s1 = .next t ∧ t.pc = clamp ((if s.reg b < s.reg a then s.reg c else s1.pc + 2 : Nat) : Int))
    ∧ (∃ t, exec (.jlt c) s1 = .next t ∧ t.pc = clamp ((if s.reg a < s.reg b then s.reg c else s1.pc + 2 : Nat) : Int))
    ∧ (∃ t, exec (.jge c) s1 = .next t ∧ t.pc = clamp ((if s.reg b ≤ s.reg a then s.reg c else s1.pc + 2 : Nat) : Int))
    ∧ (∃ t, exec (.jle c) s1 = .next t ∧ t.pc = clamp ((if s.reg a ≤ s.reg b then s.reg c else s1.pc + 2 : Nat) : Int))

/-- The corner case of R146 and the run without end of R92, for every number of steps of the host's run. -/
def Obligations.JumpToItselfNeverEnds : Prop :=
  ∀ (s s' : State) (a : Fin 8), s.status = .running → s.pc ≤ 255 → s.fetch = .instr (.jmp a) s' → s.reg a = s.pc →
    ∀ k : Nat, ∃ t, Host.Core.run Sys2Proof.core k s = .next t ∧ t.pc = s.pc ∧ t.status = .running

/-- R53 and R198 for the opcode fetch: no fence, no cache between a store and the next fetch. What strict8 stores is the spec's own decision D19 (log 19), and what PUSH R7 and CALL R7 store and jump to its D10 and D12 (log 13). -/
def Obligations.NextFetchSeesTheStore : Prop :=
  ∀ (s t : State) (a : Fin 8), s.mem.WF → s.config.opcodeMap.Valid → t.status = .running → t.pc = t.sp →
    (exec (.push a) s = .next t → ∃ u, step t = .next u ∧ u.ir = stored s.config.arithMode (t.reg a))
    ∧ (exec (.call a) s = .next t → ∃ u, step t = .next u ∧ u.ir = stored s.config.arithMode (s.pc + 2))

/-- The canonical form of the model's memory (log 1): memories of R40 are equal exactly when their cells are. -/
def Obligations.MemoriesThatReadAlikeAreEqual : Prop :=
  ∀ m m' : Memory, m.WF → m'.WF → (∀ a : Nat, m.read a = m'.read a) → m = m'

/-- R191 with the values of R37, for every value of the open parameters (D3, D4, D6); PC = 0 is the spec's own decision D5 (log 26). -/
def Obligations.StartHoldsItsResetValues : Prop :=
  ∀ (c : Config) (v : StartValues) (image : List Byte), image.length ≤ 256 →
    ∃ t, start c v (some image) = .next t ∧ t.status = .running ∧ t.pc = 0 ∧ t.sp = 0xF4
      ∧ t.reg 0 = v.regInit.r0.toNat ∧ t.reg 1 = v.regInit.r1.toNat ∧ t.reg 2 = v.regInit.r2.toNat
      ∧ t.reg 3 = v.regInit.r3.toNat ∧ t.reg 4 = v.regInit.r4.toNat ∧ t.reg 5 = v.regInit.r5.toNat
      ∧ t.reg 6 = v.regInit.r6.toNat ∧ t.flags = v.flagsInit ∧ t.output = [] ∧ t.config = c
      ∧ (∀ a : Nat, a < image.length → t.mem.read a = (image.getD a 0).toNat)
      ∧ ∀ a : Nat, image.length ≤ a → a ≤ 255 → t.mem.read a = (v.memInit.getD a 0).toNat

/-- R194. That the image is these six bytes is the spec's own inference; they are the source's three opcodes, which every map of R67 has. -/
def Obligations.FallbackProgramIsLoaded : Prop :=
  (∀ (c : Config) (v : StartValues),
      start c v none = start c v (some [0x82#8, 0x00#8, 0x08#8, 0x47#8, 0x00#8, 0x01#8]))
  ∧ ∀ m : OpcodeMap, m.Valid → encode m (.ldi 0 8) ++ encode m (.prn 0) ++ encode m .hlt = [0x82, 0x00, 0x08, 0x47, 0x00, 0x01]

/-- The spec's decision D20 in R193. -/
def Obligations.ImageOver256BytesIsRefused : Prop :=
  ∀ (c : Config) (v : StartValues) (image : List Byte), 256 < image.length →
    start c v (some image) = .refused (.imageTooLong image.length)

/-- R37 under the model's choices for the open values (log 3 to 8). -/
def Obligations.ResetIsTheDefaultStart : Prop :=
  start Config.reset StartValues.default (some []) = .next State.reset
  ∧ State.reset.status = .running ∧ State.reset.pc = 0 ∧ State.reset.sp = 0xF4 ∧ State.reset.output = []

/-- R28 and R36: the latches are overwritten before any use. -/
def Obligations.LatchesAreUnobservable : Prop :=
  ∀ s s' : State, s.observable = s'.observable →
    match step s, step s' with
    | .next t, .next t' => t.observable = t'.observable
    | .fault f, .fault f' => f = f'
    | .refused r, .refused r' => r = r'
    | _, _ => False

/-- R182 and R33: the channel has no address and no reader. -/
def Obligations.OutputIsNeverReadBack : Prop :=
  ∀ (s t : State) (o : List Nat), step s = .next t →
    ∃ w, t.output = s.output ++ w ∧ step { s with output := o } = .next { t with output := o ++ w }

end
end

