-- ==== Sys2Proof/Laws/Decode.lean ====
section
/-! SUPPORT. What the opcode map's lookup, `assemble` and the byte fields answer. -/

namespace Sys2Proof

theorem Mnemonic.mem_all (k : Mnemonic) : k ∈ Mnemonic.all := by cases k <;> decide

/-- Distinct codes (R67): a map gives two mnemonics the same byte only if they are one. -/
theorem OpcodeMap.code_injective {m : OpcodeMap} (h : m.Valid) {k k' : Mnemonic} (e : m.code k = m.code k') : k = k' :=
  List.inj_on_of_nodup_map h.1 k.mem_all k'.mem_all e

/-- The row the multiplexer selects has the opcode it was given. -/
theorem OpcodeMap.code_of_lookup {m : OpcodeMap} {op : Byte} {k : Mnemonic} (h : m.lookup op = some k) : m.code k = op := by
  simpa using List.find?_some h

/-- Under a valid map the multiplexer selects a mnemonic by its own byte. -/
theorem OpcodeMap.lookup_code {m : OpcodeMap} (h : m.Valid) (k : Mnemonic) : m.lookup (m.code k) = some k := by
  cases e : m.lookup (m.code k) with
  | none =>
    have := List.find?_eq_none.1 e k k.mem_all
    simp at this
  | some k' => rw [OpcodeMap.code_injective h (OpcodeMap.code_of_lookup e)]

/-- No row is selected exactly when no mnemonic has the byte. -/
theorem OpcodeMap.lookup_eq_none {m : OpcodeMap} {op : Byte} : m.lookup op = none ↔ ∀ k, m.code k ≠ op := by
  rw [OpcodeMap.lookup, List.find?_eq_none]
  exact ⟨fun h k => by simpa using h k k.mem_all, fun h k _ => by simpa using h k⟩

/-- The operand count in a mnemonic's byte is its arity (R67). -/
theorem OpcodeMap.count_code {m : OpcodeMap} (h : m.Valid) (k : Mnemonic) : (fieldsOf (m.code k)).n.toNat = k.arity :=
  h.2.1 k k.mem_all

/-- The PC-mutation bit in a mnemonic's byte says whether its handler sets PC (R67). -/
theorem OpcodeMap.pcm_code {m : OpcodeMap} (h : m.Valid) (k : Mnemonic) : (fieldsOf (m.code k)).pcm = k.setsPc :=
  h.2.2.1 k k.mem_all

theorem OpcodeMap.default_valid : OpcodeMap.default.Valid := by decide

/-- An instruction has its mnemonic's number of operands. -/
theorem Instr.length_operands (i : Instr) : i.operands.length = i.mnemonic.arity := by cases i <;> rfl

/-- An assembled instruction has the mnemonic and the operands it was assembled from. -/
theorem Instr.assemble_some {k : Mnemonic} {ops : List Nat} {i : Instr} (h : Instr.assemble k ops = some i) :
    i.mnemonic = k ∧ i.operands = ops := by
  unfold Instr.assemble at h
  split at h <;> first | (cases h; exact ⟨rfl, rfl⟩) | cases h

/-- Assembling succeeds on the mnemonic's number of operands. -/
theorem Instr.assemble_isSome {k : Mnemonic} {ops : List Nat} (h : ops.length = k.arity) :
    ∃ i, Instr.assemble k ops = some i := by
  rcases ops with _ | ⟨a, _ | ⟨b, _ | ⟨c, ops⟩⟩⟩ <;> cases k <;> first | exact ⟨_, rfl⟩ | simp [Mnemonic.arity] at h

/-- A byte's value names the byte. -/
theorem byte_of_toNat (b : Byte) : BitVec.ofNat 8 b.toNat = b := by simp

theorem byte_toNat_of_le {v : Nat} (h : v ≤ 255) : (BitVec.ofNat 8 v).toNat = v := by
  rw [BitVec.toNat_ofNat]; omega

end Sys2Proof
end

