-- ==== Sys2Proof/Laws/State.lean ====
section
/-! SUPPORT. One lemma per field per update of `State`, and what a register reads after each update. -/

namespace Sys2Proof.Machine

/-! ### Registers -/

/-- A register reads what was last written to it; the others are untouched. -/
theorem Regs.get_set (r : Regs) (i j : Fin 8) (v : Nat) : (r.set i v).get j = if j = i then v else r.get j := by
  obtain ⟨i, hi⟩ := i
  obtain ⟨j, hj⟩ := j
  interval_cases i <;> interval_cases j <;> rfl

/-- Two register files with equal cells are equal. -/
theorem Regs.eq_of_get {r r' : Regs} (h : ∀ i : Fin 8, r.get i = r'.get i) : r = r' := by
  have h0 := h 0; have h1 := h 1; have h2 := h 2; have h3 := h 3
  have h4 := h 4; have h5 := h 5; have h6 := h 6; have h7 := h 7
  cases r; cases r'
  simp only [Regs.get] at h0 h1 h2 h3 h4 h5 h6 h7
  subst_vars
  rfl

@[simp] theorem State.reg_setReg (s : State) (i j : Fin 8) (v : Nat) :
    (s.setReg i v).reg j = if j = i then v else s.reg j := Regs.get_set s.regs i j v

theorem State.sp_def (s : State) : s.sp = s.reg 7 := rfl

@[simp] theorem State.reg_decSp (s : State) (j : Fin 8) :
    s.decSp.reg j = if j = 7 then clamp ((s.sp : Int) - 1) else s.reg j := State.reg_setReg s 7 j _

@[simp] theorem State.reg_incSp (s : State) (j : Fin 8) :
    s.incSp.reg j = if j = 7 then clamp ((s.sp : Int) + 1) else s.reg j := State.reg_setReg s 7 j _

@[simp] theorem State.sp_decSp (s : State) : s.decSp.sp = clamp ((s.sp : Int) - 1) := State.reg_decSp s 7

@[simp] theorem State.sp_incSp (s : State) : s.incSp.sp = clamp ((s.sp : Int) + 1) := State.reg_incSp s 7

theorem State.reg_of_regs {s t : State} (h : t.regs = s.regs) (j : Fin 8) : t.reg j = s.reg j := by
  rw [State.reg, State.reg, h]

/-! ### `setReg` -/

@[simp] theorem State.setReg_regs (s : State) (i : Fin 8) (v : Nat) : (s.setReg i v).regs = s.regs.set i v := rfl
@[simp] theorem State.setReg_pc (s : State) (i : Fin 8) (v : Nat) : (s.setReg i v).pc = s.pc := rfl
@[simp] theorem State.setReg_ir (s : State) (i : Fin 8) (v : Nat) : (s.setReg i v).ir = s.ir := rfl
@[simp] theorem State.setReg_latches (s : State) (i : Fin 8) (v : Nat) : (s.setReg i v).latches = s.latches := rfl
@[simp] theorem State.setReg_flags (s : State) (i : Fin 8) (v : Nat) : (s.setReg i v).flags = s.flags := rfl
@[simp] theorem State.setReg_status (s : State) (i : Fin 8) (v : Nat) : (s.setReg i v).status = s.status := rfl
@[simp] theorem State.setReg_output (s : State) (i : Fin 8) (v : Nat) : (s.setReg i v).output = s.output := rfl
@[simp] theorem State.setReg_mem (s : State) (i : Fin 8) (v : Nat) : (s.setReg i v).mem = s.mem := rfl
@[simp] theorem State.setReg_config (s : State) (i : Fin 8) (v : Nat) : (s.setReg i v).config = s.config := rfl

/-! ### `decSp` -/

@[simp] theorem State.decSp_pc (s : State) : (s.decSp).pc = s.pc := rfl
@[simp] theorem State.decSp_ir (s : State) : (s.decSp).ir = s.ir := rfl
@[simp] theorem State.decSp_latches (s : State) : (s.decSp).latches = s.latches := rfl
@[simp] theorem State.decSp_flags (s : State) : (s.decSp).flags = s.flags := rfl
@[simp] theorem State.decSp_status (s : State) : (s.decSp).status = s.status := rfl
@[simp] theorem State.decSp_output (s : State) : (s.decSp).output = s.output := rfl
@[simp] theorem State.decSp_mem (s : State) : (s.decSp).mem = s.mem := rfl
@[simp] theorem State.decSp_config (s : State) : (s.decSp).config = s.config := rfl

/-! ### `incSp` -/

@[simp] theorem State.incSp_pc (s : State) : (s.incSp).pc = s.pc := rfl
@[simp] theorem State.incSp_ir (s : State) : (s.incSp).ir = s.ir := rfl
@[simp] theorem State.incSp_latches (s : State) : (s.incSp).latches = s.latches := rfl
@[simp] theorem State.incSp_flags (s : State) : (s.incSp).flags = s.flags := rfl
@[simp] theorem State.incSp_status (s : State) : (s.incSp).status = s.status := rfl
@[simp] theorem State.incSp_output (s : State) : (s.incSp).output = s.output := rfl
@[simp] theorem State.incSp_mem (s : State) : (s.incSp).mem = s.mem := rfl
@[simp] theorem State.incSp_config (s : State) : (s.incSp).config = s.config := rfl

/-! ### `memWrite` -/

@[simp] theorem State.memWrite_regs (s : State) (a v : Nat) : (s.memWrite a v).regs = s.regs := rfl
@[simp] theorem State.memWrite_pc (s : State) (a v : Nat) : (s.memWrite a v).pc = s.pc := rfl
@[simp] theorem State.memWrite_ir (s : State) (a v : Nat) : (s.memWrite a v).ir = s.ir := rfl
@[simp] theorem State.memWrite_latches (s : State) (a v : Nat) : (s.memWrite a v).latches = s.latches := rfl
@[simp] theorem State.memWrite_flags (s : State) (a v : Nat) : (s.memWrite a v).flags = s.flags := rfl
@[simp] theorem State.memWrite_status (s : State) (a v : Nat) : (s.memWrite a v).status = s.status := rfl
@[simp] theorem State.memWrite_output (s : State) (a v : Nat) : (s.memWrite a v).output = s.output := rfl
@[simp] theorem State.memWrite_mem (s : State) (a v : Nat) : (s.memWrite a v).mem = s.mem.write a v := rfl
@[simp] theorem State.memWrite_config (s : State) (a v : Nat) : (s.memWrite a v).config = s.config := rfl
@[simp] theorem State.memWrite_reg (s : State) (a v : Nat) (j : Fin 8) : (s.memWrite a v).reg j = s.reg j := rfl
@[simp] theorem State.memWrite_sp (s : State) (a v : Nat) : (s.memWrite a v).sp = s.sp := rfl

/-! ### `advance` -/

@[simp] theorem State.advance_regs (s : State) (n : Nat) : (s.advance n).regs = s.regs := rfl
@[simp] theorem State.advance_pc (s : State) (n : Nat) : (s.advance n).pc = clamp ((s.pc + 1 + n : Nat) : Int) := rfl
@[simp] theorem State.advance_ir (s : State) (n : Nat) : (s.advance n).ir = s.ir := rfl
@[simp] theorem State.advance_latches (s : State) (n : Nat) : (s.advance n).latches = s.latches := rfl
@[simp] theorem State.advance_flags (s : State) (n : Nat) : (s.advance n).flags = s.flags := rfl
@[simp] theorem State.advance_status (s : State) (n : Nat) : (s.advance n).status = s.status := rfl
@[simp] theorem State.advance_output (s : State) (n : Nat) : (s.advance n).output = s.output := rfl
@[simp] theorem State.advance_mem (s : State) (n : Nat) : (s.advance n).mem = s.mem := rfl
@[simp] theorem State.advance_config (s : State) (n : Nat) : (s.advance n).config = s.config := rfl
@[simp] theorem State.advance_reg (s : State) (n : Nat) (j : Fin 8) : (s.advance n).reg j = s.reg j := rfl
@[simp] theorem State.advance_sp (s : State) (n : Nat) : (s.advance n).sp = s.sp := rfl

/-! ### `jumpTo` -/

@[simp] theorem State.jumpTo_regs (s : State) (t : Nat) : (s.jumpTo t).regs = s.regs := rfl
@[simp] theorem State.jumpTo_pc (s : State) (t : Nat) : (s.jumpTo t).pc = clamp (t : Int) := rfl
@[simp] theorem State.jumpTo_ir (s : State) (t : Nat) : (s.jumpTo t).ir = s.ir := rfl
@[simp] theorem State.jumpTo_latches (s : State) (t : Nat) : (s.jumpTo t).latches = s.latches := rfl
@[simp] theorem State.jumpTo_flags (s : State) (t : Nat) : (s.jumpTo t).flags = s.flags := rfl
@[simp] theorem State.jumpTo_status (s : State) (t : Nat) : (s.jumpTo t).status = s.status := rfl
@[simp] theorem State.jumpTo_output (s : State) (t : Nat) : (s.jumpTo t).output = s.output := rfl
@[simp] theorem State.jumpTo_mem (s : State) (t : Nat) : (s.jumpTo t).mem = s.mem := rfl
@[simp] theorem State.jumpTo_config (s : State) (t : Nat) : (s.jumpTo t).config = s.config := rfl
@[simp] theorem State.jumpTo_reg (s : State) (t : Nat) (j : Fin 8) : (s.jumpTo t).reg j = s.reg j := rfl
@[simp] theorem State.jumpTo_sp (s : State) (t : Nat) : (s.jumpTo t).sp = s.sp := rfl

/-! ### `emit` -/

@[simp] theorem State.emit_regs (s : State) (v : Nat) : (s.emit v).regs = s.regs := rfl
@[simp] theorem State.emit_pc (s : State) (v : Nat) : (s.emit v).pc = s.pc := rfl
@[simp] theorem State.emit_ir (s : State) (v : Nat) : (s.emit v).ir = s.ir := rfl
@[simp] theorem State.emit_latches (s : State) (v : Nat) : (s.emit v).latches = s.latches := rfl
@[simp] theorem State.emit_flags (s : State) (v : Nat) : (s.emit v).flags = s.flags := rfl
@[simp] theorem State.emit_status (s : State) (v : Nat) : (s.emit v).status = s.status := rfl
@[simp] theorem State.emit_output (s : State) (v : Nat) : (s.emit v).output = s.output ++ [v] := rfl
@[simp] theorem State.emit_mem (s : State) (v : Nat) : (s.emit v).mem = s.mem := rfl
@[simp] theorem State.emit_config (s : State) (v : Nat) : (s.emit v).config = s.config := rfl
@[simp] theorem State.emit_reg (s : State) (v : Nat) (j : Fin 8) : (s.emit v).reg j = s.reg j := rfl
@[simp] theorem State.emit_sp (s : State) (v : Nat) : (s.emit v).sp = s.sp := rfl

/-! ### `faultWith` -/

@[simp] theorem State.faultWith_regs (s : State) (f : Fault) : (s.faultWith f).regs = s.regs := rfl
@[simp] theorem State.faultWith_pc (s : State) (f : Fault) : (s.faultWith f).pc = s.pc := rfl
@[simp] theorem State.faultWith_ir (s : State) (f : Fault) : (s.faultWith f).ir = s.ir := rfl
@[simp] theorem State.faultWith_latches (s : State) (f : Fault) : (s.faultWith f).latches = s.latches := rfl
@[simp] theorem State.faultWith_flags (s : State) (f : Fault) : (s.faultWith f).flags = s.flags := rfl
@[simp] theorem State.faultWith_status (s : State) (f : Fault) : (s.faultWith f).status = .faulted f := rfl
@[simp] theorem State.faultWith_output (s : State) (f : Fault) : (s.faultWith f).output = s.output := rfl
@[simp] theorem State.faultWith_mem (s : State) (f : Fault) : (s.faultWith f).mem = s.mem := rfl
@[simp] theorem State.faultWith_config (s : State) (f : Fault) : (s.faultWith f).config = s.config := rfl
@[simp] theorem State.faultWith_reg (s : State) (f : Fault) (j : Fin 8) : (s.faultWith f).reg j = s.reg j := rfl
@[simp] theorem State.faultWith_sp (s : State) (f : Fault) : (s.faultWith f).sp = s.sp := rfl

/-! ### `latchOpcode` -/

@[simp] theorem State.latchOpcode_regs (s : State) (op : Nat) : (s.latchOpcode op).regs = s.regs := rfl
@[simp] theorem State.latchOpcode_pc (s : State) (op : Nat) : (s.latchOpcode op).pc = s.pc := rfl
@[simp] theorem State.latchOpcode_ir (s : State) (op : Nat) : (s.latchOpcode op).ir = op := rfl
@[simp] theorem State.latchOpcode_latches (s : State) (op : Nat) : (s.latchOpcode op).latches = s.latches := rfl
@[simp] theorem State.latchOpcode_flags (s : State) (op : Nat) : (s.latchOpcode op).flags = s.flags := rfl
@[simp] theorem State.latchOpcode_status (s : State) (op : Nat) : (s.latchOpcode op).status = s.status := rfl
@[simp] theorem State.latchOpcode_output (s : State) (op : Nat) : (s.latchOpcode op).output = s.output := rfl
@[simp] theorem State.latchOpcode_mem (s : State) (op : Nat) : (s.latchOpcode op).mem = s.mem := rfl
@[simp] theorem State.latchOpcode_config (s : State) (op : Nat) : (s.latchOpcode op).config = s.config := rfl
@[simp] theorem State.latchOpcode_reg (s : State) (op : Nat) (j : Fin 8) : (s.latchOpcode op).reg j = s.reg j := rfl
@[simp] theorem State.latchOpcode_sp (s : State) (op : Nat) : (s.latchOpcode op).sp = s.sp := rfl

/-! ### `latchDecode` -/

@[simp] theorem State.latchDecode_regs (s : State) (op : Byte) (ops : List Nat) : (s.latchDecode op ops).regs = s.regs := rfl
@[simp] theorem State.latchDecode_pc (s : State) (op : Byte) (ops : List Nat) : (s.latchDecode op ops).pc = s.pc := rfl
@[simp] theorem State.latchDecode_ir (s : State) (op : Byte) (ops : List Nat) : (s.latchDecode op ops).ir = s.ir := rfl
@[simp] theorem State.latchDecode_flags (s : State) (op : Byte) (ops : List Nat) : (s.latchDecode op ops).flags = s.flags := rfl
@[simp] theorem State.latchDecode_status (s : State) (op : Byte) (ops : List Nat) : (s.latchDecode op ops).status = s.status := rfl
@[simp] theorem State.latchDecode_output (s : State) (op : Byte) (ops : List Nat) : (s.latchDecode op ops).output = s.output := rfl
@[simp] theorem State.latchDecode_mem (s : State) (op : Byte) (ops : List Nat) : (s.latchDecode op ops).mem = s.mem := rfl
@[simp] theorem State.latchDecode_config (s : State) (op : Byte) (ops : List Nat) : (s.latchDecode op ops).config = s.config := rfl
@[simp] theorem State.latchDecode_reg (s : State) (op : Byte) (ops : List Nat) (j : Fin 8) : (s.latchDecode op ops).reg j = s.reg j := rfl
@[simp] theorem State.latchDecode_sp (s : State) (op : Byte) (ops : List Nat) : (s.latchDecode op ops).sp = s.sp := rfl

@[simp] theorem State.latchDecode_ops (s : State) (op : Byte) (ops : List Nat) :
    (s.latchDecode op ops).latches.ops = ops := rfl
@[simp] theorem State.latchDecode_n (s : State) (op : Byte) (ops : List Nat) :
    (s.latchDecode op ops).latches.n = (fieldsOf op).n := rfl

/-- The mode and the narrowing of a value do not change with the state's other fields. -/
theorem State.narrow_of_config {s t : State} (h : t.config = s.config) (x : Nat) : t.narrow x = s.narrow x := by
  rw [State.narrow, State.narrow, h]

end Sys2Proof.Machine
end

