-- ==== Sys2Proof/Laws/Operands.lean ====
section
/-! SUPPORT. What the shared operand forms can do: the spec lemmas of `raise`, `withReg`, `withRegs` and `withCell`. -/

namespace Sys2Proof.Machine

variable {r rA rB a : Nat} {s t : State} {f : Fault}

theorem raise_next : raise f s = .next t ↔ t = s.faultWith f := by
  rw [raise, Host.Outcome.next.injEq, eq_comm]

theorem memRead_of_le (h : a ≤ 255) : s.memRead a = .ok (s.mem.read a) := if_pos h

theorem memRead_of_gt (h : 255 < a) : s.memRead a = .error (.badAddress a) := if_neg (by omega)

theorem withReg_of_lt {k : Fin 8 → Host.Outcome State Fault Refusal} (h : r < 8) : withReg r s k = k ⟨r, h⟩ := dif_pos h

theorem withReg_fin {k : Fin 8 → Host.Outcome State Fault Refusal} (a : Fin 8) : withReg a.val s k = k a :=
  withReg_of_lt a.isLt

theorem withReg_of_ge {k : Fin 8 → Host.Outcome State Fault Refusal} (h : 8 ≤ r) :
    withReg r s k = raise (.badRegister r) s := dif_neg (by omega)

theorem withRegs_of_lt {k : Fin 8 → Fin 8 → Host.Outcome State Fault Refusal} (hA : rA < 8) (hB : rB < 8) :
    withRegs rA rB s k = k ⟨rA, hA⟩ ⟨rB, hB⟩ := by
  rw [withRegs, withReg_of_lt hA, withReg_of_lt hB]

theorem withRegs_fin {k : Fin 8 → Fin 8 → Host.Outcome State Fault Refusal} (a b : Fin 8) :
    withRegs a.val b.val s k = k a b := withRegs_of_lt a.isLt b.isLt

theorem withRegs_of_ge_left {k : Fin 8 → Fin 8 → Host.Outcome State Fault Refusal} (h : 8 ≤ rA) :
    withRegs rA rB s k = raise (.badRegister rA) s := withReg_of_ge h

theorem withRegs_of_ge_right {k : Fin 8 → Fin 8 → Host.Outcome State Fault Refusal} (hA : rA < 8) (h : 8 ≤ rB) :
    withRegs rA rB s k = raise (.badRegister rB) s := by
  rw [withRegs, withReg_of_lt hA, withReg_of_ge h]

theorem withCell_of_le {k : Nat → Host.Outcome State Fault Refusal} (h : a ≤ 255) :
    withCell a s k = k (s.mem.read a) := by
  rw [withCell, memRead_of_le h]

theorem withCell_of_gt {k : Nat → Host.Outcome State Fault Refusal} (h : 255 < a) :
    withCell a s k = raise (.badAddress a) s := by
  rw [withCell, memRead_of_gt h]

/-- A one-register handler runs on its index, or takes `BadRegister`. -/
theorem withReg_next {k : Fin 8 → Host.Outcome State Fault Refusal} (h : withReg r s k = .next t) :
    (∃ hr : r < 8, k ⟨r, hr⟩ = .next t) ∨ (8 ≤ r ∧ t = s.faultWith (.badRegister r)) := by
  rcases lt_or_ge r 8 with hr | hr
  · exact .inl ⟨hr, (withReg_of_lt hr).symm.trans h⟩
  · rw [withReg_of_ge hr] at h
    exact .inr ⟨hr, raise_next.1 h⟩

/-- A two-register handler runs on its indices, or takes `BadRegister` of the first operand that is no index. -/
theorem withRegs_next {k : Fin 8 → Fin 8 → Host.Outcome State Fault Refusal} (h : withRegs rA rB s k = .next t) :
    (∃ (hA : rA < 8) (hB : rB < 8), k ⟨rA, hA⟩ ⟨rB, hB⟩ = .next t)
    ∨ (8 ≤ rA ∧ t = s.faultWith (.badRegister rA)) ∨ (rA < 8 ∧ 8 ≤ rB ∧ t = s.faultWith (.badRegister rB)) := by
  rcases withReg_next h with ⟨hA, h⟩ | h
  · rcases withReg_next h with ⟨hB, h⟩ | ⟨hB, h⟩
    · exact .inl ⟨hA, hB, h⟩
    · exact .inr (.inr ⟨hA, hB, h⟩)
  · exact .inr (.inl h)

/-- A handler that reads a data cell runs on its value, or takes `BadAddress`. -/
theorem withCell_next {k : Nat → Host.Outcome State Fault Refusal} (h : withCell a s k = .next t) :
    (a ≤ 255 ∧ k (s.mem.read a) = .next t) ∨ (255 < a ∧ t = s.faultWith (.badAddress a)) := by
  rcases le_or_gt a 255 with ha | ha
  · exact .inl ⟨ha, (withCell_of_le ha).symm.trans h⟩
  · rw [withCell_of_gt ha] at h
    exact .inr ⟨ha, raise_next.1 h⟩

end Sys2Proof.Machine
end

