-- ==== Sys2Proof/Laws/Exec.lean ====
section
/-! SUPPORT. What an instruction can do, said once: `exec` always answers a next state, which is either the instruction's
effect or a fault of its operands. -/

namespace Sys2Proof.Machine

/-! ### Each instruction over the shared operand forms -/

section
variable (s : State) (rA rB v : Nat)

theorem exec_hlt : exec .hlt s =
    .next { s with status := .halted } := rfl
theorem exec_ldi : exec (.ldi rA v) s =
    withReg rA s (fun a => .next ((s.setReg a (s.narrow v)).advance 2)) := rfl
theorem exec_ld : exec (.ld rA rB) s =
    withRegs rA rB s (fun a b => withCell (s.reg b) s (fun v => .next ((s.setReg a v).advance 2))) := rfl
theorem exec_prn : exec (.prn rA) s =
    withReg rA s (fun a => .next ((s.emit (s.reg a)).advance 1)) := rfl
theorem exec_nop : exec .nop s =
    .next (s.advance 0) := rfl
theorem exec_push : exec (.push rA) s =
    withReg rA s (fun a => 
      .next ((s.decSp.memWrite s.decSp.sp (s.narrow (s.decSp.reg a))).advance 1)) := rfl
theorem exec_pop : exec (.pop rA) s =
    withReg rA s (fun a => withCell s.sp s (fun v => .next ((s.setReg a v).incSp.advance 1))) := rfl
theorem exec_call : exec (.call rA) s =
    withReg rA s (fun a => 
      .next ((s.decSp.memWrite s.decSp.sp (s.narrow (s.pc + 2))).jumpTo (s.decSp.reg a))) := rfl
theorem exec_ret : exec .ret s =
    withCell s.sp s (fun v => .next (s.incSp.jumpTo v)) := rfl
theorem exec_jmp : exec (.jmp rA) s =
    withReg rA s (fun a => .next (s.jumpTo (s.reg a))) := rfl
theorem exec_jeq : exec (.jeq rA) s =
    withReg rA s (fun a => .next (if s.flags.equal then s.jumpTo (s.reg a) else s.jumpTo (s.pc + 2))) := rfl
theorem exec_jne : exec (.jne rA) s =
    withReg rA s (fun a => .next (if s.flags.notEqual then s.jumpTo (s.reg a) else s.jumpTo (s.pc + 2))) := rfl
theorem exec_jgt : exec (.jgt rA) s =
    withReg rA s (fun a => .next (if s.flags.greater then s.jumpTo (s.reg a) else s.jumpTo (s.pc + 2))) := rfl
theorem exec_jlt : exec (.jlt rA) s =
    withReg rA s (fun a => .next (if s.flags.less then s.jumpTo (s.reg a) else s.jumpTo (s.pc + 2))) := rfl
theorem exec_jle : exec (.jle rA) s =
    withReg rA s (fun a => .next (if s.flags.lessOrEqual then s.jumpTo (s.reg a) else s.jumpTo (s.pc + 2))) := rfl
theorem exec_jge : exec (.jge rA) s =
    withReg rA s (fun a => .next (if s.flags.greaterOrEqual then s.jumpTo (s.reg a) else s.jumpTo (s.pc + 2))) := rfl
theorem exec_add : exec (.add rA rB) s =
    withRegs rA rB s (fun a b =>
      .next ((s.setReg a (s.narrow (s.reg a + s.reg b))).advance 2)) := rfl
theorem exec_mul : exec (.mul rA rB) s =
    withRegs rA rB s (fun a b =>
      .next ((s.setReg a (s.narrow (s.reg a * s.reg b))).advance 2)) := rfl
theorem exec_and : exec (.and rA rB) s =
    withRegs rA rB s (fun a b =>
      .next ((s.setReg a (s.narrow (s.reg a &&& s.reg b))).advance 2)) := rfl
theorem exec_cmp : exec (.cmp rA rB) s =
    withRegs rA rB s (fun a b =>
      .next (State.advance { s with flags := Flags.compare (s.reg a) (s.reg b) } 2)) := rfl
theorem exec_inc : exec (.inc rA) s =
    withReg rA s (fun a => 
      .next ((s.setReg a (clamp ((s.reg a : Int) + 1))).advance 1)) := rfl
theorem exec_dec : exec (.dec rA) s =
    withReg rA s (fun a => 
      .next ((s.setReg a (clamp ((s.reg a : Int) - 1))).advance 1)) := rfl

end

/-! ### All an instruction can do -/

/-- The effect of an instruction whose operands raise nothing. -/
def Effect (i : Instr) (s t : State) : Prop :=
  match i with
  | .hlt => t = { s with status := .halted }
  | .ldi rA v => ∃ a : Fin 8, a.val = rA ∧ t = (s.setReg a (s.narrow v)).advance 2
  | .ld rA rB => ∃ a b : Fin 8, a.val = rA ∧ b.val = rB ∧ s.reg b ≤ 255
      ∧ t = (s.setReg a (s.mem.read (s.reg b))).advance 2
  | .prn rA => ∃ a : Fin 8, a.val = rA ∧ t = (s.emit (s.reg a)).advance 1
  | .nop => t = s.advance 0
  | .push rA => ∃ a : Fin 8, a.val = rA
      ∧ t = (s.decSp.memWrite s.decSp.sp (s.narrow (s.decSp.reg a))).advance 1
  | .pop rA => ∃ a : Fin 8, a.val = rA ∧ s.sp ≤ 255 ∧ t = (s.setReg a (s.mem.read s.sp)).incSp.advance 1
  | .call rA => ∃ a : Fin 8, a.val = rA
      ∧ t = (s.decSp.memWrite s.decSp.sp (s.narrow (s.pc + 2))).jumpTo (s.decSp.reg a)
  | .ret => s.sp ≤ 255 ∧ t = s.incSp.jumpTo (s.mem.read s.sp)
  | .jmp rA => ∃ a : Fin 8, a.val = rA ∧ t = s.jumpTo (s.reg a)
  | .jeq rA => ∃ a : Fin 8, a.val = rA ∧ t = if s.flags.equal then s.jumpTo (s.reg a) else s.jumpTo (s.pc + 2)
  | .jne rA => ∃ a : Fin 8, a.val = rA ∧ t = if s.flags.notEqual then s.jumpTo (s.reg a) else s.jumpTo (s.pc + 2)
  | .jgt rA => ∃ a : Fin 8, a.val = rA ∧ t = if s.flags.greater then s.jumpTo (s.reg a) else s.jumpTo (s.pc + 2)
  | .jlt rA => ∃ a : Fin 8, a.val = rA ∧ t = if s.flags.less then s.jumpTo (s.reg a) else s.jumpTo (s.pc + 2)
  | .jle rA => ∃ a : Fin 8, a.val = rA
      ∧ t = if s.flags.lessOrEqual then s.jumpTo (s.reg a) else s.jumpTo (s.pc + 2)
  | .jge rA => ∃ a : Fin 8, a.val = rA
      ∧ t = if s.flags.greaterOrEqual then s.jumpTo (s.reg a) else s.jumpTo (s.pc + 2)
  | .add rA rB => ∃ a b : Fin 8, a.val = rA ∧ b.val = rB
      ∧ t = (s.setReg a (s.narrow (s.reg a + s.reg b))).advance 2
  | .mul rA rB => ∃ a b : Fin 8, a.val = rA ∧ b.val = rB
      ∧ t = (s.setReg a (s.narrow (s.reg a * s.reg b))).advance 2
  | .cmp rA rB => ∃ a b : Fin 8, a.val = rA ∧ b.val = rB
      ∧ t = State.advance { s with flags := Flags.compare (s.reg a) (s.reg b) } 2
  | .and rA rB => ∃ a b : Fin 8, a.val = rA ∧ b.val = rB
      ∧ t = (s.setReg a (s.narrow (s.reg a &&& s.reg b))).advance 2
  | .inc rA => ∃ a : Fin 8, a.val = rA ∧ t = (s.setReg a (clamp ((s.reg a : Int) + 1))).advance 1
  | .dec rA => ∃ a : Fin 8, a.val = rA ∧ t = (s.setReg a (clamp ((s.reg a : Int) - 1))).advance 1

/-- A fault of an instruction's operands: a register operand that is no index, or the address LD, POP or RET reads. -/
def OperandFault (i : Instr) (s : State) (f : Fault) : Prop :=
  (∃ r ∈ i.regOperands, 8 ≤ r ∧ f = .badRegister r)
  ∨ ∃ a : Nat, 255 < a ∧ f = .badAddress a
      ∧ ((∃ (rA : Nat) (b : Fin 8), i = .ld rA b.val ∧ a = s.reg b) ∨ (((∃ rA, i = .pop rA) ∨ i = .ret) ∧ a = s.sp))

/-- All an instruction can do: its effect, or a fault of its operands, which leaves only the status changed. -/
theorem exec_cases {i : Instr} {s t : State} (h : exec i s = .next t) :
    Effect i s t ∨ ∃ f, OperandFault i s f ∧ t = s.faultWith f := by
  cases i <;> simp only [exec, execLdi, execLd, execPrn, execPush, execPop, execCall, execRet, execJmp, execJeq, execJne,
    execJgt, execJlt, execJle, execJge, branchIf, execAdd, execMul, execAnd, execCmp, execInc, execDec] at h
  case hlt => exact .inl (Host.Outcome.next.inj h).symm
  case nop => exact .inl (Host.Outcome.next.inj h).symm
  case ret =>
    rcases withCell_next h with ⟨ha, h⟩ | ⟨ha, h⟩
    · exact .inl ⟨ha, (Host.Outcome.next.inj h).symm⟩
    · exact .inr ⟨_, .inr ⟨_, ha, rfl, .inr ⟨.inr rfl, rfl⟩⟩, h⟩
  case pop rA =>
    rcases withReg_next h with ⟨hA, h⟩ | ⟨hA, h⟩
    · rcases withCell_next h with ⟨ha, h⟩ | ⟨ha, h⟩
      · exact .inl ⟨_, rfl, ha, (Host.Outcome.next.inj h).symm⟩
      · exact .inr ⟨_, .inr ⟨_, ha, rfl, .inr ⟨.inl ⟨_, rfl⟩, rfl⟩⟩, h⟩
    · exact .inr ⟨_, .inl ⟨_, by simp [Instr.regOperands], hA, rfl⟩, h⟩
  case ld rA rB =>
    rcases withRegs_next h with ⟨hA, hB, h⟩ | ⟨hA, h⟩ | ⟨hA, hB, h⟩
    · rcases withCell_next h with ⟨ha, h⟩ | ⟨ha, h⟩
      · exact .inl ⟨_, _, rfl, rfl, ha, (Host.Outcome.next.inj h).symm⟩
      · exact .inr ⟨_, .inr ⟨_, ha, rfl, .inl ⟨_, ⟨rB, hB⟩, rfl, rfl⟩⟩, h⟩
    · exact .inr ⟨_, .inl ⟨_, by simp [Instr.regOperands], hA, rfl⟩, h⟩
    · exact .inr ⟨_, .inl ⟨_, by simp [Instr.regOperands], hB, rfl⟩, h⟩
  case add | mul | cmp | and =>
    rcases withRegs_next h with ⟨hA, hB, h⟩ | ⟨hA, h⟩ | ⟨hA, hB, h⟩
    · exact .inl ⟨_, _, rfl, rfl, (Host.Outcome.next.inj h).symm⟩
    · exact .inr ⟨_, .inl ⟨_, by simp [Instr.regOperands], hA, rfl⟩, h⟩
    · exact .inr ⟨_, .inl ⟨_, by simp [Instr.regOperands], hB, rfl⟩, h⟩
  all_goals
    rcases withReg_next h with ⟨hA, h⟩ | ⟨hA, h⟩
    · exact .inl ⟨_, rfl, (Host.Outcome.next.inj h).symm⟩
    · exact .inr ⟨_, .inl ⟨_, by simp [Instr.regOperands], hA, rfl⟩, h⟩

/-- The parameters are those the instruction started with. -/
theorem Effect.config_eq {i : Instr} {s t : State} (h : Effect i s t) : t.config = s.config := by
  cases i <;> simp only [Effect] at h
  case hlt | nop => subst h; rfl
  case ret => obtain ⟨-, rfl⟩ := h; rfl
  case pop => obtain ⟨a, rfl, -, rfl⟩ := h; rfl
  case ld => obtain ⟨a, b, rfl, rfl, -, rfl⟩ := h; rfl
  case add | mul | cmp | and => obtain ⟨a, b, rfl, rfl, rfl⟩ := h; rfl
  case jeq | jne | jgt | jlt | jle | jge => obtain ⟨a, rfl, rfl⟩ := h; split <;> rfl
  all_goals obtain ⟨a, rfl, rfl⟩ := h; rfl

/-- IR and the decoder latches are those the cycle latched before the instruction. -/
theorem Effect.latched_eq {i : Instr} {s t : State} (h : Effect i s t) : t.ir = s.ir ∧ t.latches = s.latches := by
  cases i <;> simp only [Effect] at h
  case hlt | nop => subst h; exact ⟨rfl, rfl⟩
  case ret => obtain ⟨-, rfl⟩ := h; exact ⟨rfl, rfl⟩
  case pop => obtain ⟨a, rfl, -, rfl⟩ := h; exact ⟨rfl, rfl⟩
  case ld => obtain ⟨a, b, rfl, rfl, -, rfl⟩ := h; exact ⟨rfl, rfl⟩
  case add | mul | cmp | and => obtain ⟨a, b, rfl, rfl, rfl⟩ := h; exact ⟨rfl, rfl⟩
  case jeq | jne | jgt | jlt | jle | jge => obtain ⟨a, rfl, rfl⟩ := h; split <;> exact ⟨rfl, rfl⟩
  all_goals obtain ⟨a, rfl, rfl⟩ := h; exact ⟨rfl, rfl⟩

/-- `withReg` of a handler that answers a next state answers one. -/
theorem withReg_total {r : Nat} {s : State} {k : Fin 8 → Host.Outcome State Fault Refusal}
    (h : ∀ a, ∃ t, k a = .next t) : ∃ t, withReg r s k = .next t := by
  rcases lt_or_ge r 8 with hr | hr
  · rw [withReg_of_lt hr]; exact h _
  · rw [withReg_of_ge hr]; exact ⟨_, rfl⟩

theorem withCell_total {a : Nat} {s : State} {k : Nat → Host.Outcome State Fault Refusal}
    (h : ∀ v, ∃ t, k v = .next t) : ∃ t, withCell a s k = .next t := by
  rcases le_or_gt a 255 with ha | ha
  · rw [withCell_of_le ha]; exact h _
  · rw [withCell_of_gt ha]; exact ⟨_, rfl⟩

/-- No instruction is refused, and none stops otherwise: `exec` answers a next state. -/
theorem exec_total (i : Instr) (s : State) : ∃ t, exec i s = .next t := by
  cases i <;> simp only [exec, execLdi, execLd, execPrn, execPush, execPop, execCall, execRet, execJmp, execJeq, execJne,
    execJgt, execJlt, execJle, execJge, branchIf, execAdd, execMul, execAnd, execCmp, execInc, execDec]
  case hlt | nop => exact ⟨_, rfl⟩
  case ret => exact withCell_total (fun v => ⟨_, rfl⟩)
  case pop => exact withReg_total (fun a => withCell_total (fun v => ⟨_, rfl⟩))
  case ld => exact withReg_total (fun a => withReg_total (fun b => withCell_total (fun v => ⟨_, rfl⟩)))
  case add | mul | cmp | and => exact withReg_total (fun a => withReg_total (fun b => ⟨_, rfl⟩))
  all_goals exact withReg_total (fun a => ⟨_, rfl⟩)

end Sys2Proof.Machine
end

