-- ==== Sys2Proof/Laws/Memory.lean ====
section
/-! SUPPORT. The laws of memory: every operation keeps the canonical form, and a read after a write answers the value
written there and the old value elsewhere. -/

namespace Sys2Proof.Machine

@[simp] theorem Memory.read_nil (a : Nat) : Memory.read [] a = 0 := rfl

theorem Memory.read_cons (b w : Nat) (m : Memory) (a : Nat) :
    Memory.read ((b, w) :: m) a = if a = b then w else Memory.read m a := rfl

theorem Memory.wf_nil : Memory.WF [] := by simp [Memory.WF]

/-- The canonical form of a listed cell and the rest. -/
theorem Memory.wf_cons {b w : Nat} {m : Memory} :
    Memory.WF ((b, w) :: m) ↔ (∀ p ∈ m, b < p.1) ∧ b ≤ 255 ∧ w ≠ 0 ∧ Memory.WF m := by
  simp only [Memory.WF, List.pairwise_cons, List.mem_cons, Memory.unlisted]
  constructor
  · rintro ⟨⟨h1, h2⟩, h3⟩
    exact ⟨h1, (h3 _ (.inl rfl)).1, (h3 _ (.inl rfl)).2, h2, fun p hp => h3 p (.inr hp)⟩
  · rintro ⟨h1, h2, h3, h4, h5⟩
    exact ⟨⟨h1, h4⟩, by rintro p (rfl | hp); exacts [⟨h2, h3⟩, h5 p hp]⟩

/-- An address below every listed one reads as unlisted. -/
theorem Memory.read_of_lt {m : Memory} {a : Nat} (h : ∀ p ∈ m, a < p.1) : Memory.read m a = 0 := by
  induction m with
  | nil => rfl
  | cons p m ih =>
    obtain ⟨b, w⟩ := p
    have hb : a < b := h (b, w) (by simp)
    rw [Memory.read_cons, if_neg (by omega)]
    exact ih (fun q hq => h q (by simp [hq]))

/-- In canonical form no cell outside 0..255 is listed. -/
theorem Memory.read_of_gt {m : Memory} (hm : m.WF) {a : Nat} (h : 255 < a) : Memory.read m a = 0 := by
  induction m with
  | nil => rfl
  | cons p m ih =>
    obtain ⟨b, w⟩ := p
    obtain ⟨-, hb, -, hm'⟩ := Memory.wf_cons.1 hm
    rw [Memory.read_cons, if_neg (by omega)]
    exact ih hm'

/-- Every cell listed after a write was listed before, or is the one written. -/
theorem Memory.mem_write {m : Memory} {a v : Nat} {p : Nat × Nat} (h : p ∈ m.write a v) : p ∈ m ∨ (p = (a, v) ∧ v ≠ 0) := by
  induction m with
  | nil =>
    simp only [Memory.write, Memory.unlisted] at h
    split at h <;> simp_all
  | cons q m ih =>
    obtain ⟨b, w⟩ := q
    simp only [Memory.write, Memory.unlisted] at h
    split at h
    · split at h
      · exact .inl h
      · rcases List.mem_cons.1 h with rfl | h
        · exact .inr ⟨rfl, ‹_›⟩
        · exact .inl h
    · split at h
      · split at h
        · exact .inl (by simp [h])
        · rcases List.mem_cons.1 h with rfl | h
          · exact .inr ⟨rfl, ‹_›⟩
          · exact .inl (by simp [h])
      · rcases List.mem_cons.1 h with rfl | h
        · exact .inl (by simp)
        · rcases ih h with h | h
          · exact .inl (by simp [h])
          · exact .inr h

/-- A write keeps the canonical form. -/
theorem Memory.write_wf {m : Memory} (hm : m.WF) {a : Nat} (ha : a ≤ 255) (v : Nat) : (m.write a v).WF := by
  induction m with
  | nil =>
    simp only [Memory.write, Memory.unlisted]
    split
    · exact Memory.wf_nil
    · exact Memory.wf_cons.2 ⟨by simp, ha, ‹_›, Memory.wf_nil⟩
  | cons q m ih =>
    obtain ⟨b, w⟩ := q
    obtain ⟨h1, hb, hw, hm'⟩ := Memory.wf_cons.1 hm
    simp only [Memory.write, Memory.unlisted]
    split
    · rename_i hab
      split
      · exact hm
      · refine Memory.wf_cons.2 ⟨?_, ha, ‹_›, hm⟩
        intro p hp
        rcases List.mem_cons.1 hp with rfl | hp
        · exact hab
        · exact lt_trans hab (h1 p hp)
    · split
      · rename_i hab
        subst hab
        split
        · exact hm'
        · exact Memory.wf_cons.2 ⟨h1, ha, ‹_›, hm'⟩
      · refine Memory.wf_cons.2 ⟨?_, hb, hw, ih hm'⟩
        intro p hp
        rcases Memory.mem_write hp with hp | ⟨rfl, -⟩
        · exact h1 p hp
        · show b < a
          omega

/-- A read after a write: the value written at that address, the old one at every other. -/
theorem Memory.read_write {m : Memory} (hm : m.WF) (a b : Nat) (v : Nat) :
    (m.write a v).read b = if b = a then v else m.read b := by
  induction m with
  | nil =>
    simp only [Memory.write, Memory.unlisted]
    split <;> simp [Memory.read_cons, *]
  | cons q m ih =>
    obtain ⟨c, w⟩ := q
    obtain ⟨h1, -, -, hm'⟩ := Memory.wf_cons.1 hm
    simp only [Memory.write, Memory.unlisted]
    split
    · rename_i hac
      split
      · subst_vars
        split
        · subst_vars
          rw [Memory.read_cons, if_neg (by omega)]
          exact Memory.read_of_lt (fun p hp => lt_trans hac (h1 p hp))
        · rfl
      · rw [Memory.read_cons]
    · split
      · rename_i hac
        subst hac
        split
        · subst_vars
          split
          · subst_vars; exact Memory.read_of_lt h1
          · rw [Memory.read_cons, if_neg ‹_›]
        · rw [Memory.read_cons, Memory.read_cons]
          split <;> rfl
      · rw [Memory.read_cons, Memory.read_cons, ih hm']
        split
        · subst_vars
          rw [if_neg (by omega)]
        · rfl

theorem Memory.read_write_self {m : Memory} (hm : m.WF) (a : Nat) (v : Nat) : (m.write a v).read a = v := by
  rw [Memory.read_write hm, if_pos rfl]

theorem Memory.read_write_ne {m : Memory} (hm : m.WF) {a b : Nat} (h : b ≠ a) (v : Nat) :
    (m.write a v).read b = m.read b := by
  rw [Memory.read_write hm, if_neg h]

/-- Loading bytes keeps the canonical form while they fit. -/
theorem Memory.writeBytes_wf {m : Memory} (hm : m.WF) {a : Nat} {bs : List Byte} (h : a + bs.length ≤ 256) :
    (m.writeBytes a bs).WF := by
  induction bs generalizing m a with
  | nil => exact hm
  | cons b bs ih =>
    simp only [List.length_cons] at h
    exact ih (Memory.write_wf hm (by omega) _) (by omega)

/-- What a cell reads after bytes are loaded at `a`. -/
theorem Memory.read_writeBytes {m : Memory} (hm : m.WF) {a : Nat} {bs : List Byte} (h : a + bs.length ≤ 256) (c : Nat) :
    (m.writeBytes a bs).read c = if a ≤ c ∧ c < a + bs.length then (bs.getD (c - a) 0).toNat else m.read c := by
  induction bs generalizing m a with
  | nil =>
    rw [if_neg (by simp only [List.length_nil]; omega)]
    rfl
  | cons b bs ih =>
    simp only [List.length_cons] at h ⊢
    show (Memory.writeBytes (m.write a b.toNat) (a + 1) bs).read c = _
    rw [ih (Memory.write_wf hm (by omega) _) (by omega), Memory.read_write hm]
    by_cases hca : c = a
    · subst hca
      rw [if_neg (by omega), if_pos rfl, if_pos (by omega)]
      simp
    · by_cases hr : a ≤ c ∧ c < a + (bs.length + 1)
      · rw [if_pos (by omega), if_pos hr]
        have : c - a = (c - (a + 1)) + 1 := by omega
        rw [this, List.getD_cons_succ]
      · rw [if_neg (by omega), if_neg hca, if_neg hr]

/-- Placing cells for a fetch keeps the canonical form. -/
theorem placeCells_wf (c : Config) (pc : Nat) (vs : List Nat) (k : Nat) {m : Memory} (hm : m.WF) :
    (placeCells c pc k vs m).WF := by
  induction vs generalizing m k with
  | nil => exact hm
  | cons v vs ih =>
    rw [placeCells]
    split
    · exact ih _ (Memory.write_wf hm ‹_› _)
    · exact ih _ hm

/-- The reset memory is in canonical form. -/
theorem State.reset_mem_wf : State.reset.mem.WF := Memory.wf_nil

/-- Two memories in canonical form are equal data when every address reads the same in both, once their first cells agree
in place: the step of the induction. -/
theorem Memory.head_le_of_read {b w : Nat} {m m' : Memory} (hm : Memory.WF ((b, w) :: m))
    (h : ∀ a, Memory.read ((b, w) :: m) a = Memory.read m' a) (hm' : m'.WF) : ∃ p ∈ m', p.1 = b := by
  obtain ⟨-, -, hw, -⟩ := Memory.wf_cons.1 hm
  have hb := h b
  rw [Memory.read_cons, if_pos rfl] at hb
  clear h hm
  induction m' with
  | nil => exact absurd hb hw
  | cons q m' ih =>
    obtain ⟨c, x⟩ := q
    rw [Memory.read_cons] at hb
    split at hb
    · exact ⟨(c, x), by simp, by simp [*]⟩
    · obtain ⟨p, hp, hpb⟩ := ih (Memory.wf_cons.1 hm').2.2.2 hb
      exact ⟨p, by simp [hp], hpb⟩

end Sys2Proof.Machine
end

