-- ==== Sys2Proof/Laws/PerInstr.lean ====
section
/-! SUPPORT. The family `Assembly`: every instruction is what its own mnemonic and operands assemble to (R86). -/

namespace Sys2Proof.Laws.Assembly

/-- Assembling an instruction's mnemonic with its operands gives it back. -/
def Statement (i : Instr) : Prop := Instr.assemble i.mnemonic i.operands = some i

theorem hlt : Statement (.hlt) := rfl
theorem ldi (rA imm : Nat) : Statement (.ldi rA imm) := rfl
theorem ld (rA rB : Nat) : Statement (.ld rA rB) := rfl
theorem prn (rA : Nat) : Statement (.prn rA) := rfl
theorem nop : Statement (.nop) := rfl
theorem push (rA : Nat) : Statement (.push rA) := rfl
theorem pop (rA : Nat) : Statement (.pop rA) := rfl
theorem call (rA : Nat) : Statement (.call rA) := rfl
theorem ret : Statement (.ret) := rfl
theorem jmp (rA : Nat) : Statement (.jmp rA) := rfl
theorem jeq (rA : Nat) : Statement (.jeq rA) := rfl
theorem jne (rA : Nat) : Statement (.jne rA) := rfl
theorem jgt (rA : Nat) : Statement (.jgt rA) := rfl
theorem jlt (rA : Nat) : Statement (.jlt rA) := rfl
theorem jle (rA : Nat) : Statement (.jle rA) := rfl
theorem jge (rA : Nat) : Statement (.jge rA) := rfl
theorem add (rA rB : Nat) : Statement (.add rA rB) := rfl
theorem mul (rA rB : Nat) : Statement (.mul rA rB) := rfl
theorem cmp (rA rB : Nat) : Statement (.cmp rA rB) := rfl
theorem and (rA rB : Nat) : Statement (.and rA rB) := rfl
theorem inc (rA : Nat) : Statement (.inc rA) := rfl
theorem dec (rA : Nat) : Statement (.dec rA) := rfl

end Sys2Proof.Laws.Assembly
end

