-- ==== Sys2Proof/Laws/Step.lean ====
section
/-! SUPPORT. What the first half of a cycle and a step can do, said once. -/

namespace Sys2Proof.Machine

/-- All the first half of a cycle changes: IR and the decoder latches, with at most `n` operands latched (R28). -/
def LatchedFrom (s s' : State) : Prop :=
  ∃ op l, s' = { s with ir := op, latches := l }
    ∧ (l = s.latches ∨ l.ops.length ≤ l.n.toNat)

theorem LatchedFrom.refl (s : State) : LatchedFrom s s := ⟨s.ir, s.latches, rfl, .inl rfl⟩

theorem latchOpcode_latched (s : State) (op : Nat) : LatchedFrom s (s.latchOpcode op) := ⟨op, s.latches, rfl, .inl rfl⟩

/-- At most the asked number of operands is fetched. -/
theorem State.fetchOperands_length (s : State) (k count : Nat) : (s.fetchOperands k count).1.length ≤ count := by
  induction count generalizing k with
  | zero => simp [State.fetchOperands]
  | succ count ih =>
    rw [State.fetchOperands]
    split
    · simp
    · simpa using ih (k + 1)

/-- An operand fetch at addresses in 0..255 fetches their cells. -/
theorem State.fetchOperands_ok (s : State) (k count : Nat)
    (h : ∀ j < count, operandAddr s.config s.pc (k + j) ≤ 255) :
    s.fetchOperands k count = ((List.range count).map (fun j => s.mem.read (operandAddr s.config s.pc (k + j))), none) := by
  induction count generalizing k with
  | zero => rfl
  | succ count ih =>
    have h0 := h 0 (by omega)
    rw [Nat.add_zero] at h0
    rw [State.fetchOperands, memRead_of_le h0]
    simp only
    rw [ih (k + 1) (fun j hj => by have := h (j + 1) (by omega); rwa [show k + (j + 1) = k + 1 + j by omega] at this)]
    rw [List.range_succ_eq_map, List.map_cons, List.map_map]
    simp [Function.comp_def, Nat.add_comm, Nat.add_left_comm]

/-- Under `wrap` every operand address of an instruction at a PC in range is in 0..255. -/
theorem operandAddr_wrap {c : Config} (h : c.operandFetchAtTop = .wrap) {pc k : Nat} (hpc : pc ≤ 255) (hk : k ≤ 256) :
    operandAddr c pc k ≤ 255 := by
  rw [operandAddr, h]
  split
  · assumption
  · show pc + k - 256 ≤ 255
    omega

theorem operandAddr_of_le {c : Config} {pc k : Nat} (h : pc + k ≤ 255) : operandAddr c pc k = pc + k := if_pos h

theorem operandAddr_fault {c : Config} (h : c.operandFetchAtTop = .fault) (pc k : Nat) : operandAddr c pc k = pc + k := by
  rw [operandAddr, h]; simp

/-- An instruction fetched leaves all but IR and the latches. -/
theorem State.fetch_instr {s s' : State} {i : Instr} (h : s.fetch = .instr i s') : LatchedFrom s s' := by
  unfold State.fetch at h
  split at h
  · cases h
  · split at h
    · cases h
    · dsimp only at h
      split at h
      · cases h
      · split at h <;> cases h
        exact ⟨_, _, rfl, .inr (State.fetchOperands_length _ _ _)⟩

/-- A fault of the first half of a cycle leaves all but IR and the latches, and is not a register's or the generic ALU's. -/
theorem State.fetch_trap {s s' : State} {f : Fault} (h : s.fetch = .trap f s') :
    LatchedFrom s s' ∧ ((∃ v, f = .unknownOpcode v) ∨ ∃ a, f = .badAddress a) := by
  have hread : ∀ {a : Nat} {g : Fault}, s.memRead a = .error g → g = .badAddress a := by
    intro a g hg
    unfold State.memRead at hg
    split at hg
    · cases hg
    · exact (Except.error.inj hg).symm
  have hops : ∀ {count k : Nat} {g : Fault}, (s.fetchOperands k count).2 = some g → ∃ a, g = .badAddress a := by
    intro count
    induction count with
    | zero => intro k g hg; cases hg
    | succ count ih =>
      intro k g hg
      rw [State.fetchOperands] at hg
      split at hg
      · rename_i e he
        exact ⟨_, (Option.some.inj hg) ▸ hread he⟩
      · exact ih hg
  unfold State.fetch at h
  split at h
  · rename_i e he
    cases h
    exact ⟨.refl s, .inr ⟨_, hread he⟩⟩
  · split at h
    · cases h
      exact ⟨latchOpcode_latched _ _, .inl ⟨_, rfl⟩⟩
    · dsimp only at h
      split at h
      · rename_i e he
        cases h
        exact ⟨⟨_, _, rfl, .inr (State.fetchOperands_length _ _ _)⟩, .inr (hops he)⟩
      · split at h <;> cases h
        exact ⟨⟨_, _, rfl, .inr (State.fetchOperands_length _ _ _)⟩, .inl ⟨_, rfl⟩⟩

/-- All a step can do: only a running machine steps, and it latches IR and the decoder's outputs, then takes a fault or
executes the instruction fetched. -/
theorem step_cases {s t : State} (h : step s = .next t) :
    s.status = .running ∧
      ((∃ f s', s.fetch = .trap f s' ∧ LatchedFrom s s' ∧ t = s'.faultWith f)
      ∨ ∃ i s', s.fetch = .instr i s' ∧ LatchedFrom s s' ∧ exec i s' = .next t) := by
  unfold step at h
  split at h
  · refine ⟨‹_›, ?_⟩
    split at h
    · exact .inr ⟨_, _, ‹_›, State.fetch_instr ‹_›, h⟩
    · exact .inl ⟨_, _, ‹_›, (State.fetch_trap ‹_›).1, raise_next.1 h⟩
    · cases h
  all_goals cases h

/-- A running machine's step is its cycle. -/
theorem step_running {s : State} (h : s.status = .running) :
    step s = match s.fetch with
      | .instr i s' => exec i s'
      | .trap f s' => raise f s'
      | .badMap k => .refused (.opcodeMapArity k) := by
  rw [step, h] <;> rfl

end Sys2Proof.Machine
end

