-- ==== Sys2Proof/Laws/Values.lean ====
section
/-! SUPPORT. What `clamp`, `mask8` and `narrow` answer. -/

namespace Sys2Proof.Machine

theorem clamp_of_neg {x : Int} (h : x < 0) : clamp x = 255 := by simp [clamp, h]

theorem clamp_of_gt {x : Int} (h : 255 < x) : clamp x = 0 := by
  have : ¬ x < 0 := by omega
  simp [clamp, h, this]

theorem clamp_of_mem {x : Int} (h0 : 0 ≤ x) (h1 : x ≤ 255) : clamp x = x.toNat := by
  have : ¬ x < 0 := by omega
  have : ¬ 255 < x := by omega
  simp [clamp, *]

/-- A clamped value is an address. -/
theorem clamp_le (x : Int) : clamp x ≤ 255 := by
  unfold clamp
  split
  · omega
  · split <;> omega

/-- PC is in range after every advance and every jump. -/
theorem State.advance_pc_le (s : State) (n : Nat) : (s.advance n).pc ≤ 255 := clamp_le ((s.pc + 1 + n : Nat) : Int)

theorem State.jumpTo_pc_le (s : State) (t : Nat) : (s.jumpTo t).pc ≤ 255 := clamp_le (t : Int)

/-- SP is an address after every push and every pop. -/
theorem State.decSp_sp_le (s : State) : s.decSp.sp ≤ 255 := s.sp_decSp ▸ clamp_le _

theorem State.incSp_sp_le (s : State) : s.incSp.sp ≤ 255 := s.sp_incSp ▸ clamp_le _

/-- Clamping a value already in range changes nothing. -/
@[simp] theorem clamp_natCast_of_le {x : Nat} (h : x ≤ 255) : clamp (x : Int) = x := by
  rw [clamp_of_mem (by omega) (by omega)]; simp

/-- All `clamp` can do, for `omega`. -/
theorem clamp_cases (x : Int) :
    (x < 0 ∧ clamp x = 255) ∨ (255 < x ∧ clamp x = 0) ∨ (0 ≤ x ∧ x ≤ 255 ∧ (clamp x : Int) = x) := by
  rcases lt_or_ge x 0 with h | h
  · exact .inl ⟨h, clamp_of_neg h⟩
  · rcases lt_or_ge 255 x with h' | h'
    · exact .inr (.inl ⟨h', clamp_of_gt h'⟩)
    · exact .inr (.inr ⟨h, h', by rw [clamp_of_mem h h']; omega⟩)

theorem mask8_le (x : Nat) : mask8 x ≤ 255 := by unfold mask8; omega

@[simp] theorem narrow_legacy (x : Nat) : narrow .legacy x = x := rfl

@[simp] theorem narrow_strict8 (x : Nat) : narrow .strict8 x = mask8 x := rfl

/-- Narrowing a byte changes nothing, in either mode. -/
theorem narrow_of_le (mode : ArithMode) {x : Nat} (h : x ≤ 255) : narrow mode x = x := by
  cases mode
  · rfl
  · rw [narrow_strict8]; unfold mask8; omega

theorem State.narrow_eq (s : State) (x : Nat) : s.narrow x = Sys2Proof.Machine.narrow s.config.arithMode x := rfl

/-- In `strict8` mode a narrowed value is a byte. -/
theorem State.narrow_le {s : State} (h : s.config.arithMode = .strict8) (x : Nat) : s.narrow x ≤ 255 := by
  rw [State.narrow_eq, h]; exact mask8_le x

end Sys2Proof.Machine
end

