-- ==== Sys2Proof/Tests/Slice0.lean ====
section
/-! SUPPORT. Tests of the model against the spec's own words and vectors (30_encoding.md, 95_test_vectors.md), and for every
statement with hypotheses a named witness that meets them together. Expected values come from the tables of
95_test_vectors.md, named by their ids. -/

namespace Sys2Proof.Tests
open Sys2Proof Sys2Proof.Machine

/-! ### Building small states -/

/-- The reset state with PC, R0, R1, R2 and SP given and the named cells written. -/
def machine (pc r0 r1 r2 sp : Nat) (cells : List (Nat × Nat)) : State :=
  { State.reset with
    pc := pc
    regs := { State.reset.regs with r0 := r0, r1 := r1, r2 := r2, r7 := sp }
    mem := cells.foldl (fun m c => m.write c.1 c.2) [] }

/-- The same in `strict8` mode. -/
def State.strict (s : State) : State := { s with config := { s.config with arithMode := .strict8 } }

/-- The same with operand fetches that wrap at the top. -/
def State.wrapping (s : State) : State := { s with config := { s.config with operandFetchAtTop := .wrap } }

/-- The same with the flags (E, G, L) given. -/
def State.flagged (s : State) (e g l : Bool) : State := { s with flags := ⟨e, g, l⟩ }

/-- One step answers a next state with the property. -/
def steps (s : State) (p : State → Bool) : Bool :=
  match step s with
  | .next t => p t
  | .fault _ | .refused _ => false

/-- The state after one step, or the same state where there is none. -/
def after (s : State) : State :=
  match step s with
  | .next t => t
  | .fault _ | .refused _ => s

/-! ### Well-formedness -/

theorem test_wf_refuses_register_8 : (Instr.ld 1 8).wellFormed = false := by decide
theorem test_wf_refuses_immediate_256 : (Instr.ldi 0 256).wellFormed = false := by decide
theorem test_wf_accepts_the_ends : (Instr.ldi 7 255).wellFormed = true := by decide

/-! ### Decoding: every constructor, by a word of R66 with each operand different -/

theorem test_decode_hlt  : decodeTableWord 8 0b00000001 = some .hlt := by decide
theorem test_decode_ldi  : decodeTableWord 24 0b11111111_00000110_10000010 = some (.ldi 6 255) := by decide
theorem test_decode_ld   : decodeTableWord 24 0b00000010_00000001_10000011 = some (.ld 1 2) := by decide
theorem test_decode_prn  : decodeTableWord 16 0b00000011_01000111 = some (.prn 3) := by decide
theorem test_decode_nop  : decodeTableWord 8 0b00000000 = some .nop := by decide
theorem test_decode_push : decodeTableWord 16 0b00000001_01000101 = some (.push 1) := by decide
theorem test_decode_pop  : decodeTableWord 16 0b00000010_01000110 = some (.pop 2) := by decide
theorem test_decode_call : decodeTableWord 16 0b00000001_01010000 = some (.call 1) := by decide
theorem test_decode_ret  : decodeTableWord 8 0b00010001 = some .ret := by decide
theorem test_decode_jmp  : decodeTableWord 16 0b00000010_01010100 = some (.jmp 2) := by decide
theorem test_decode_jeq  : decodeTableWord 16 0b00000010_01010101 = some (.jeq 2) := by decide
theorem test_decode_jne  : decodeTableWord 16 0b00000010_01010110 = some (.jne 2) := by decide
theorem test_decode_jgt  : decodeTableWord 16 0b00000010_01010111 = some (.jgt 2) := by decide
theorem test_decode_jlt  : decodeTableWord 16 0b00000010_01011000 = some (.jlt 2) := by decide
theorem test_decode_jle  : decodeTableWord 16 0b00000010_01011001 = some (.jle 2) := by decide
theorem test_decode_jge  : decodeTableWord 16 0b00000010_01011010 = some (.jge 2) := by decide
theorem test_decode_add  : decodeTableWord 24 0b00000001_00000100_10100000 = some (.add 4 1) := by decide
theorem test_decode_mul  : decodeTableWord 24 0b00000001_00000100_10100010 = some (.mul 4 1) := by decide
theorem test_decode_cmp  : decodeTableWord 24 0b00000001_00000100_10100111 = some (.cmp 4 1) := by decide
theorem test_decode_and  : decodeTableWord 24 0b00000001_00000100_10101000 = some (.and 4 1) := by decide
theorem test_decode_inc  : decodeTableWord 16 0b00000101_01100101 = some (.inc 5) := by decide
theorem test_decode_dec  : decodeTableWord 16 0b00000101_01100110 = some (.dec 5) := by decide

/-- The absent bytes of 95_test_vectors.md section 2.1. -/
theorem test_decode_refuses_absent_bytes :
    decodeTableWord 8 0x02 = none ∧ decodeTableWord 16 0x48 = none ∧ decodeTableWord 24 0xA1 = none
    ∧ decodeTableWord 32 0xC0 = none ∧ decodeTableWord 32 0xFF = none := by decide

/-- R82: a cell above 255 is refused before its fields are looked at. -/
theorem test_decode_refuses_cell_300 : decode OpcodeMap.default [300, 0, 0] = .error (.unknownOpcode 300) := by decide

/-- R84: a byte string that ends inside an instruction names the missing operand. -/
theorem test_decode_refuses_missing_operand : decode OpcodeMap.default [0x82, 0] = .error (.missingOperand 2) := by decide

/-- Rows 0x5A, 0xA7, 0xFF of 95_test_vectors.md section 2.1. -/
theorem test_fields : fieldsOf 0x5A = ⟨1, false, true, 0xA⟩ ∧ fieldsOf 0xA7 = ⟨2, true, false, 0x7⟩
    ∧ fieldsOf 0xFF = ⟨3, true, true, 0xF⟩ := by decide

/-- R72's examples of the spelling. -/
theorem test_spelling : (Instr.ldi 0 8).spelling = "LDI R0,8" ∧ (Instr.prn 0).spelling = "PRN R0"
    ∧ Instr.hlt.spelling = "HLT" ∧ (Instr.ld 1 2).spelling = "LD R1,R2" := by decide

/-- 95_test_vectors.md section 2.2. -/
theorem test_clamp_and_mask : clamp (-1) = 255 ∧ clamp 0 = 0 ∧ clamp 255 = 255 ∧ clamp 256 = 0 ∧ clamp 300 = 0
    ∧ mask8 255 = 255 ∧ mask8 256 = 0 ∧ mask8 301 = 45 ∧ mask8 65025 = 1 := by decide

/-! ### One step of each instruction (95_test_vectors.md sections 2.3 to 2.8) -/

/-- B11; 2.3: HLT does not move PC. -/
theorem test_hlt : steps (machine 255 0 0 0 0xF4 [(255, 0x01)]) (fun t => t.status = .halted && t.pc = 255) = true := by
  decide
/-- B10, and 2.3 at PC = 255. -/
theorem test_nop : steps (machine 7 0 0 0 0xF4 []) (fun t => t.pc = 8) = true := by decide
theorem test_nop_at_the_top : steps (machine 255 0 0 0 0xF4 []) (fun t => t.pc = 0) = true := by decide
/-- B1 and B2. -/
theorem test_ldi : steps (machine 0 0 0 0 0xF4 [(0, 0x82), (2, 255)]) (fun t => t.reg 0 = 255 && t.pc = 3) = true := by decide
/-- 2.3: under `wrap` LDI at 254 reads its second operand from cell 0. -/
theorem test_ldi_wraps : steps (State.wrapping (machine 254 0 0 0 0xF4 [(254, 0x82), (255, 1), (0, 9)]))
    (fun t => t.reg 1 = 9 && t.pc = 0) = true := by decide
/-- B5: the destination is also the address. -/
theorem test_ld : steps (machine 0 0 5 0 0xF4 [(0, 0x83), (1, 1), (2, 1), (5, 9)]) (fun t => t.reg 1 = 9) = true := by decide
/-- B6. -/
theorem test_ld_address : steps (machine 0 0 7 300 0xF4 [(0, 0x83), (1, 1), (2, 2)])
    (fun t => t.status = .faulted (.badAddress 300) && t.reg 1 = 7 && t.pc = 0) = true := by decide
/-- B8 and B9. -/
theorem test_prn : steps (machine 0 300 0 0 0xF4 [(0, 0x47)]) (fun t => t.output = [300] && t.pc = 2) = true := by decide
theorem test_prn_sp : steps (machine 0 0 0 0 0xF4 [(0, 0x47), (1, 7)]) (fun t => t.output = [244]) = true := by decide
/-- A2 in both modes. -/
theorem test_add : steps (machine 0 200 100 0 0xF4 [(0, 0xA0), (2, 1)]) (fun t => t.reg 0 = 300) = true := by decide
theorem test_add_strict : steps (State.strict (machine 0 200 100 0 0xF4 [(0, 0xA0), (2, 1)])) (fun t => t.reg 0 = 44) = true := by
  decide
/-- A7 in both modes. -/
theorem test_mul : steps (machine 0 255 255 0 0xF4 [(0, 0xA2), (2, 1)]) (fun t => t.reg 0 = 65025) = true := by decide
theorem test_mul_strict : steps (State.strict (machine 0 255 255 0 0xF4 [(0, 0xA2), (2, 1)])) (fun t => t.reg 0 = 1) = true := by
  decide
/-- A9 and A10. -/
theorem test_and : steps (machine 0 0xCC 0xAA 0 0xF4 [(0, 0xA8), (2, 1)]) (fun t => t.reg 0 = 136) = true := by decide
theorem test_and_legacy : steps (machine 0 300 260 0 0xF4 [(0, 0xA8), (2, 1)]) (fun t => t.reg 0 = 260) = true := by decide
/-- C1 and C5. -/
theorem test_cmp_less : steps (machine 0 3 5 0 0xF4 [(0, 0xA7), (2, 1)]) (fun t => t.flags = ⟨false, false, true⟩) = true := by
  decide
theorem test_cmp_greater : steps (machine 0 300 255 0 0xF4 [(0, 0xA7), (2, 1)])
    (fun t => t.flags = ⟨false, true, false⟩ && t.reg 0 = 300) = true := by decide
/-- A13 and A18. -/
theorem test_inc : steps (machine 0 255 0 0 0xF4 [(0, 0x65)]) (fun t => t.reg 0 = 0) = true := by decide
theorem test_inc_sp : steps (machine 0 0 0 0 0xF4 [(0, 0x65), (1, 7)]) (fun t => t.sp = 0xF5) = true := by decide
/-- A15 and A17. -/
theorem test_dec : steps (machine 0 0 0 0 0xF4 [(0, 0x66)]) (fun t => t.reg 0 = 255) = true := by decide
theorem test_dec_legacy : steps (machine 0 300 0 0 0xF4 [(0, 0x66)]) (fun t => t.reg 0 = 0) = true := by decide
/-- S3 and S6. -/
theorem test_push : steps (machine 5 0 7 0 0 [(5, 0x45), (6, 1)]) (fun t => t.sp = 255 && t.mem.read 255 = 7) = true := by decide
theorem test_push_sp : steps (machine 0 0 0 0 0xF4 [(0, 0x45), (1, 7)]) (fun t => t.sp = 0xF3 && t.mem.read 0xF3 = 0xF3) = true := by
  decide
/-- S4 and S7. -/
theorem test_pop : steps (machine 0 0 0 0 255 [(0, 0x46), (1, 1), (255, 7)]) (fun t => t.reg 1 = 7 && t.sp = 0) = true := by decide
theorem test_pop_sp : steps (machine 0 0 0 0 0xF3 [(0, 0x46), (1, 7), (0xF3, 0x20)]) (fun t => t.sp = 0x21) = true := by decide
/-- J3 and J6. -/
theorem test_call : steps (machine 254 0 0x40 0 0xF4 [(254, 0x50), (255, 1)])
    (fun t => t.mem.read 0xF3 = 256 && t.pc = 0x40) = true := by decide
theorem test_call_sp : steps (machine 6 0 0 0 0xF4 [(6, 0x50), (7, 7)]) (fun t => t.mem.read 0xF3 = 8 && t.pc = 0xF3) = true := by
  decide
/-- J4 and J7. -/
theorem test_ret : steps (machine 0 0 0 0 0xF3 [(0, 0x11), (0xF3, 256)]) (fun t => t.pc = 0 && t.sp = 0xF4) = true := by decide
theorem test_ret_wraps : steps (machine 0 0 0 0 255 [(0, 0x11), (255, 3)]) (fun t => t.pc = 3 && t.sp = 0) = true := by decide
/-- J8 and J9. -/
theorem test_jmp : steps (machine 0 0 0 9 0xF4 [(0, 0x54), (1, 2)]) (fun t => t.pc = 9) = true := by decide
theorem test_jmp_legacy : steps (machine 5 0 0 300 0xF4 [(5, 0x54), (6, 2)]) (fun t => t.pc = 0) = true := by decide

/-- A jump through R2 = 20 at PC = 16. -/
def jumpAt16 (op : Nat) : State := machine 16 0 0 20 0xF4 [(16, op), (17, 2)]

/-- The PC each row of the conditional jump table of section 2.7 gives: flags E, then G, then L, then none. -/
def jumpRow (op : Nat) : List Nat :=
  [(after (State.flagged (jumpAt16 op) true false false)).pc, (after (State.flagged (jumpAt16 op) false true false)).pc,
   (after (State.flagged (jumpAt16 op) false false true)).pc, (after (jumpAt16 op)).pc]

theorem test_jeq : jumpRow 0x55 = [20, 18, 18, 18] := by decide
theorem test_jne : jumpRow 0x56 = [18, 20, 20, 20] := by decide
theorem test_jgt : jumpRow 0x57 = [18, 20, 18, 18] := by decide
theorem test_jlt : jumpRow 0x58 = [18, 18, 20, 18] := by decide
theorem test_jge : jumpRow 0x5A = [20, 20, 18, 18] := by decide
theorem test_jle : jumpRow 0x59 = [20, 18, 20, 18] := by decide
/-- J11 and J12. -/
theorem test_jne_at_the_top : steps (State.flagged (machine 254 0 0 5 0xF4 [(254, 0x56), (255, 2)]) true false false)
    (fun t => t.pc = 0) = true := by decide
theorem test_jeq_bad_register : steps (machine 0 0 0 5 0xF4 [(0, 0x55), (1, 8)])
    (fun t => t.status = .faulted (.badRegister 8) && t.pc = 0) = true := by decide

/-- F1, F2, F3, F6 and F7. -/
theorem test_fault_unknown_opcode : steps (machine 5 0 0 0 0xF4 [(5, 0x02)])
    (fun t => t.status = .faulted (.unknownOpcode 2) && t.pc = 5) = true := by decide
theorem test_fault_count_three : steps (machine 0 0 0 0 0xF4 [(0, 0xC0)])
    (fun t => t.status = .faulted (.unknownOpcode 0xC0) && t.latches.ops = [0, 0, 0]) = true := by decide
theorem test_fault_operand_fetch_first : steps (machine 254 0 0 0 0xF4 [(254, 0xC0)])
    (fun t => t.status = .faulted (.badAddress 256)) = true := by decide
theorem test_fault_register_before_address : steps (machine 0 0 300 0 0xF4 [(0, 0x83), (1, 9), (2, 1)])
    (fun t => t.status = .faulted (.badRegister 9)) = true := by decide
theorem test_fault_cell_300 : steps (machine 0 0 0 0 0xF4 [(0, 300)])
    (fun t => t.status = .faulted (.unknownOpcode 300) && t.ir = 300) = true := by decide

/-- W1 and W2: the fallback program's six cells, and its first instruction. -/
theorem test_fallback_first_step :
    (match start Config.reset StartValues.default none with
     | .next s => steps s (fun t => t.reg 0 = 8 && t.pc = 3)
     | .fault _ | .refused _ => false) = true := by decide

/-- The host's way in: a word placed where `step` fetches next runs as the first instruction after reset. -/
theorem test_withFetchWord : steps (State.reset.withFetchWord 24 0x080082) (fun t => t.reg 0 = 8 && t.pc = 3) = true := by decide

/-! ### Witnesses: states and operands that meet the hypotheses of each statement -/

theorem step_after {s : State} (h : steps s (fun _ => true) = true) : step s = .next (after s) := by
  revert h
  unfold steps after
  cases step s <;> simp

/-- The map of DefaultMapMeetsItsConstraints and FallbackProgramIsLoaded. -/
theorem test_witness_valid_map : OpcodeMap.default.Valid := by decide

theorem test_witness_DecodeOfEncodeIsTheInstruction :
    OpcodeMap.default.Valid ∧ decode OpcodeMap.default (encode OpcodeMap.default (.add 9 300) ++ [7]) = .ok (.add 9 300, [7]) := by
  decide

theorem test_witness_EncodeOfDecodeIsTheCells :
    decode OpcodeMap.default [0x83, 1, 2, 0x01] = .ok (.ld 1 2, [0x01]) := by decide

/-- Lengths 1, 2 and 3. -/
theorem test_witness_OpcodeByteFixesTheLength :
    OpcodeMap.default.Valid ∧ decode OpcodeMap.default (0x11 :: [5]) = .ok (.ret, [5])
    ∧ decode OpcodeMap.default (0x45 :: [1, 5]) = .ok (.push 1, [5])
    ∧ decode OpcodeMap.default (0xA8 :: [1, 2, 5]) = .ok (.and 1 2, [5]) := by decide

/-- LDI with its last operand at address 255, and the same instruction wrapping. -/
theorem test_witness_StepRunsTheDecodedInstruction :
    (let s := machine 253 0 0 0 0xF4 [(253, 0x82), (255, 5)]
     s.status = .running ∧ s.pc ≤ 255 ∧ s.operandsReachable
       ∧ decode s.config.opcodeMap (s.opcode :: s.operandCells) = .ok (.ldi 0 5, []))
    ∧ (let s := State.wrapping (machine 255 0 0 0 0xF4 [(255, 0x82), (0, 1), (1, 5)])
       s.status = .running ∧ s.pc ≤ 255 ∧ s.operandsReachable
         ∧ decode s.config.opcodeMap (s.opcode :: s.operandCells) = .ok (.ldi 1 5, [])) := by
  unfold State.operandsReachable
  decide

theorem test_witness_OnlyARunningMachineSteps :
    State.reset.config.opcodeMap.Valid
    ∧ (let s := { State.reset with status := .halted }
       s.status.ended = true ∧ Run s s)
    ∧ ({ State.reset with status := .faulted (.badRegister 8) } : State).status.ended = true
    ∧ (construct Config.reset StartValues.default).status = .idle :=
  ⟨by decide, ⟨rfl, .refl _⟩, rfl, rfl⟩

theorem test_witness_StoppedMachinesAnswerTheirStop :
    ({ State.reset with status := .idle } : State).status = .idle
    ∧ ({ State.reset with status := .halted } : State).status = .halted
    ∧ ({ State.reset with status := .faulted (.badAddress 256) } : State).status = .faulted (.badAddress 256) := by decide

theorem test_witness_OpcodeCellAbove255FaultsAtOnce :
    let s := machine 255 0 0 0 0xF4 [(255, 256)]
    s.status = .running ∧ s.pc ≤ 255 ∧ 255 < s.opcode := by decide

/-- The clauses meet at the last operand's address: 255 is reachable, 256 is not. -/
theorem test_witness_OperandFetchPastTheTop :
    (let s := machine 253 0 0 0 0xF4 [(253, 0x82)]
     s.pc ≤ 255 ∧ s.operandsReachable)
    ∧ (let s := State.wrapping (machine 255 0 0 0 0xF4 [(255, 0xC0)])
       s.pc ≤ 255 ∧ s.operandsReachable)
    ∧ (let s := machine 254 0 0 0 0xF4 [(254, 0x82)]
       s.status = .running ∧ s.pc ≤ 255 ∧ s.opcode ≤ 255 ∧ s.config.operandFetchAtTop = .fault
         ∧ 255 < s.pc + s.operandCount) := by
  unfold State.operandsReachable
  decide

/-- A byte that is no row, and a byte that is one. -/
theorem test_witness_DispatchKeysOnTheFullByte :
    (let s := machine 0 0 0 0 0xF4 [(0, 0x02)]
     s.status = .running ∧ s.config.opcodeMap.Valid ∧ s.pc ≤ 255 ∧ s.opcode ≤ 255 ∧ s.operandsReachable
       ∧ ∀ k ∈ Mnemonic.all, (s.config.opcodeMap.code k).toNat ≠ s.opcode)
    ∧ (let s := machine 0 0 0 0 0xF4 [(0, 0xA8)]
       s.status = .running ∧ s.config.opcodeMap.Valid ∧ s.pc ≤ 255 ∧ s.opcode ≤ 255 ∧ s.operandsReachable
         ∧ (s.config.opcodeMap.code .and).toNat = s.opcode) := by
  unfold State.operandsReachable
  decide

/-- At PC = 252 the third operand is cell 255; at 253 it would be 256. -/
theorem test_witness_CountThreeIsNeverRecognised :
    (let s := machine 252 0 0 0 0xF4 [(252, 0xC0)]
     s.status = .running ∧ s.config.opcodeMap.Valid ∧ s.pc ≤ 255 ∧ s.opcode ≤ 255 ∧ s.opcode / 64 = 3 ∧ s.operandsReachable)
    ∧ (let s := machine 253 0 0 0 0xF4 [(253, 0xFF)]
       s.status = .running ∧ s.config.opcodeMap.Valid ∧ s.pc ≤ 255 ∧ s.opcode ≤ 255 ∧ s.opcode / 64 = 3
         ∧ ¬ s.operandsReachable) := by
  unfold State.operandsReachable
  decide

/-- LDI at 253 under `fault`, and at 254 under `wrap`. -/
theorem test_witness_SequentialAdvanceIsClamped :
    (let s := machine 253 0 0 0 0xF4 [(253, 0x82)]
     s.status = .running ∧ s.config.opcodeMap.Valid ∧ s.pc ≤ 255 ∧ s.opcode / 16 % 2 = 0
       ∧ s.config.operandFetchAtTop = .fault ∧ step s = .next (after s) ∧ (after s).status = .running)
    ∧ (let s := State.wrapping (machine 254 0 0 0 0xF4 [(254, 0x82)])
       s.status = .running ∧ s.config.opcodeMap.Valid ∧ s.pc ≤ 255 ∧ s.opcode / 16 % 2 = 0
         ∧ step s = .next (after s) ∧ (after s).status = .running) :=
  ⟨⟨rfl, by decide, by decide, by decide, rfl, step_after (by decide), by decide⟩,
   ⟨rfl, by decide, by decide, by decide, step_after (by decide), by decide⟩⟩

/-- F6: the register check comes before the address check; and a cycle without a fault. -/
theorem test_witness_FirstFaultInOrderIsRaised :
    (let s := machine 0 0 300 0 0xF4 [(0, 0x83), (1, 9), (2, 1)]
     s.status = .running ∧ s.config.opcodeMap.Valid ∧ s.pc ≤ 255 ∧ firstFault s = some (.badRegister 9))
    ∧ (let s := machine 255 0 0 0 0xF4 []
       s.status = .running ∧ s.config.opcodeMap.Valid ∧ s.pc ≤ 255 ∧ firstFault s = none) := by decide

/-- A `legacy` state and a `strict8` state that meet the invariant. -/
theorem reset_inv : State.reset.Inv where
  memory := State.reset_mem_wf
  pc := by decide
  map := by decide
  operands := by decide
  eightBit := fun h => by cases h

theorem strict_reset_inv : (State.strict State.reset).Inv where
  memory := State.reset_mem_wf
  pc := by decide
  map := by decide
  operands := by decide
  eightBit := fun _ => ⟨by decide, fun _ => Nat.zero_le _, fun _ h => by cases h⟩

theorem test_witness_EveryStepKeepsMachineInvariant :
    (State.reset.Inv ∧ step State.reset = .next (after State.reset))
    ∧ ((State.strict State.reset).Inv ∧ step (State.strict State.reset) = .next (after (State.strict State.reset))) :=
  ⟨⟨reset_inv, step_after (by decide)⟩, strict_reset_inv, step_after (by decide)⟩

/-- The state the fallback program starts from. -/
def fallbackStart : State :=
  match start Config.reset StartValues.default none with
  | .next s => s
  | .fault _ | .refused _ => State.reset

theorem start_fallback : start Config.reset StartValues.default none = .next fallbackStart := rfl

theorem test_witness_EveryStartMeetsMachineInvariant :
    Config.reset.opcodeMap.Valid ∧ start Config.reset StartValues.default none = .next fallbackStart := ⟨by decide, rfl⟩

theorem test_witness_EveryRunStaysWithinTheInvariant :
    Config.reset.opcodeMap.Valid ∧ start Config.reset StartValues.default none = .next fallbackStart
    ∧ Run fallbackStart (after fallbackStart) :=
  ⟨by decide, rfl, .cons (step_after (by decide)) (.refl _)⟩

theorem test_witness_DispatchTableIsFixedForTheRun : Run State.reset (after State.reset) :=
  .cons (step_after (by decide)) (.refl _)

theorem test_witness_OneFlagStaysSet :
    let s := State.flagged (machine 0 3 5 0 0xF4 [(0, 0xA7), (2, 1)]) true false false
    s.flags.oneHot = true ∧ step s = .next (after s) := ⟨rfl, step_after (by decide)⟩

/-- A step that changes the flags, and one that does not. -/
theorem test_witness_FlagsChangeOnlyByCmp :
    (let s := machine 0 3 5 0 0xF4 [(0, 0xA7), (2, 1)]
     step s = .next (after s) ∧ (after s).flags ≠ s.flags)
    ∧ (let s := machine 0 3 5 0 0xF4 [(0, 0xA0), (2, 1)]
       step s = .next (after s) ∧ (after s).flags = s.flags) :=
  ⟨⟨step_after (by decide), by decide⟩, step_after (by decide), by decide⟩

theorem test_witness_MemoryChangesOnlyByPushAndCall :
    (let s := machine 0 5 0 0 0xF4 [(0, 0x45)]
     step s = .next (after s) ∧ (after s).mem ≠ s.mem)
    ∧ (let s := machine 0 5 0 0 0xF4 [(0, 0x50)]
       step s = .next (after s) ∧ (after s).mem ≠ s.mem) :=
  ⟨⟨step_after (by decide), by decide⟩, step_after (by decide), by decide⟩

theorem test_witness_OutputGrowsOnlyByPrn :
    let s := machine 0 5 0 0 0xF4 [(0, 0x47)]
    step s = .next (after s) ∧ (after s).output ≠ s.output := ⟨step_after (by decide), by decide⟩

/-- POP writes two registers. -/
theorem test_witness_RegistersChangeOnlyAsNamed :
    let s := machine 0 0 0 0 0xF3 [(0xF3, 9)]
    ∃ t, exec (.pop 1) s = .next t ∧ t.reg 1 ≠ s.reg 1 ∧ t.reg 7 ≠ s.reg 7 := ⟨_, rfl, by decide, by decide⟩

theorem test_witness_FaultsArePrecise :
    let s := machine 5 0 0 0 0xF4 [(5, 0x02)]
    step s = .next (after s) ∧ (after s).status = .faulted (.unknownOpcode 2) ∧ s.pc ≤ 255 :=
  ⟨step_after (by decide), by decide, by decide⟩

/-- A20: two bad registers, and A19: only the second is bad. -/
theorem test_witness_BadRegisterIsCheckedFirst :
    (Instr.add 9 8).regOperands.find? (fun x => decide (8 ≤ x)) = some 9
    ∧ (Instr.add 0 8).regOperands.find? (fun x => decide (8 ≤ x)) = some 8
    ∧ State.reset.status = .running
    ∧ ∃ t, exec (.add 0 8) State.reset = .next t ∧ t.status = .faulted (.badRegister 8) :=
  ⟨by decide, by decide, rfl, _, rfl, rfl⟩

theorem test_witness_GenericAluIsUnreachable :
    "SUB" ≠ "ADD" ∧ step State.reset = .next (after State.reset) := ⟨by decide, step_after (by decide)⟩

/-- 8 is no register index, the first value above the range: the register fault's clause of LdiLoadsTheImmediate,
PrnEmitsTheRegister, AddMulAndResults, CmpSetsExactlyOneFlag, IncDecAreClamped, JmpGoesToTheRegister and
ConditionalJumpsFollowTheFlags; their other clauses assume nothing. -/
theorem test_witness_register_8 : 8 ≤ 8 ∧ ¬ 8 ≤ 7 := by decide

/-- The clauses of LD meet at address 255 and 256; either register may be the bad one. -/
theorem test_witness_LdLoadsTheCell :
    (machine 0 0 0 255 0xF4 []).reg 2 ≤ 255 ∧ 255 < (machine 0 0 0 256 0xF4 []).reg 2 ∧ 8 ≤ 8 := by decide

theorem test_witness_LdiThenPrnEmitsTheByte : 255 ≤ 255 ∧ 0 ≤ 255 := by decide

/-- The three orders, with the values next to each other. -/
theorem test_witness_CmpSetsExactlyOneFlag :
    (machine 0 4 4 0 0xF4 []).reg 0 = (machine 0 4 4 0 0xF4 []).reg 1
    ∧ (machine 0 4 5 0 0xF4 []).reg 0 < (machine 0 4 5 0 0xF4 []).reg 1
    ∧ (machine 0 5 4 0 0xF4 []).reg 1 < (machine 0 5 4 0 0xF4 []).reg 0 := by decide

theorem test_witness_IncThenDecRestoresBytes :
    (machine 0 255 0 0 0xF4 []).reg 0 ≤ 255 ∧ 255 < (machine 0 256 0 0 0xF4 []).reg 0 := by decide

/-- Each clause of `clamp` at its ends. -/
theorem test_witness_ClampAndMaskValues :
    ((-1 : Int) < 0 ∧ (255 : Int) < 256) ∧ ((0 : Int) ≤ 0 ∧ (255 : Int) ≤ 255) ∧ ((-1 : Int) ≤ -1 ∧ (256 : Int) ≤ 256) := by decide

/-- Memory in canonical form, with SP at 0, where the new top is 255; R1 and R7 as the register pushed. -/
theorem test_witness_PushStoresAtTheNewTop :
    (machine 0 0 7 0 0 []).mem.WF ∧ (machine 0 0 7 0 0 []).sp = 0 ∧ (1 : Fin 8) ≠ 7 ∧ 8 ≤ 8 :=
  ⟨State.reset_mem_wf, by decide, by decide, by decide⟩

/-- SP at 255 and at 256; both destinations. -/
theorem test_witness_PopLoadsTheTop :
    (machine 0 0 0 0 255 []).sp ≤ 255 ∧ 255 < (machine 0 0 0 0 256 []).sp ∧ (1 : Fin 8) ≠ 7 ∧ 8 ≤ 8 := by decide

theorem test_witness_CallPushesAndJumps : (machine 254 0 0 0 0 []).mem.WF ∧ 8 ≤ 8 := ⟨State.reset_mem_wf, by decide⟩

theorem test_witness_RetPopsIntoPc : (machine 0 0 0 0 255 []).sp ≤ 255 ∧ 255 < (machine 0 0 0 0 256 []).sp := by decide

theorem test_witness_PushThenPopRestores :
    (1 : Fin 8) ≠ 7 ∧ (2 : Fin 8) ≠ 7 ∧ (machine 0 0 5 0 255 []).sp ≤ 255 ∧ (machine 0 0 5 0 255 []).mem.WF :=
  ⟨by decide, by decide, by decide, State.reset_mem_wf⟩

/-- A call from 253 and one from 254, each with a later state that has SP and the cell at SP as the call left them. -/
theorem test_witness_CallThenRetResumes :
    (let s := machine 253 0 0x40 0 0xF4 []
     s.sp ≤ 255 ∧ s.mem.WF ∧ s.pc ≤ 253 ∧ ∃ s1, exec (.call 1) s = .next s1
       ∧ s1.sp = 0xF3 ∧ s1.mem.read s1.sp = 255)
    ∧ (let s := machine 254 0 0x40 0 0xF4 []
       s.sp ≤ 255 ∧ s.mem.WF ∧ s.pc = 254 ∧ ∃ s1, exec (.call 1) s = .next s1
         ∧ s1.sp = 0xF3 ∧ s1.mem.read s1.sp = 256) :=
  ⟨⟨by decide, State.reset_mem_wf, by decide, _, rfl, rfl, rfl⟩,
   ⟨by decide, State.reset_mem_wf, rfl, _, rfl, rfl, rfl⟩⟩

/-- JMP R2 at 16 with R2 = 16. -/
theorem test_witness_JumpToItselfNeverEnds :
    let s := machine 16 0 0 16 0xF4 [(16, 0x54), (17, 2)]
    s.status = .running ∧ s.pc ≤ 255 ∧ (∃ s', s.fetch = .instr (.jmp (2 : Fin 8)) s') ∧ s.reg 2 = s.pc :=
  ⟨rfl, by decide, ⟨_, rfl⟩, rfl⟩

/-- PUSH R1 at 0xF1, which stores at 0xF3 and goes on there; CALL R7, which goes to the cell it stored. -/
theorem test_witness_NextFetchSeesTheStore :
    (let s := machine 0xF1 0 1 0 0xF4 []
     s.mem.WF ∧ s.config.opcodeMap.Valid ∧ ∃ t, exec (.push (1 : Fin 8)) s = .next t ∧ t.status = .running ∧ t.pc = t.sp)
    ∧ (let s := machine 6 0 0 0 0xF4 []
       s.mem.WF ∧ s.config.opcodeMap.Valid ∧ ∃ t, exec (.call (7 : Fin 8)) s = .next t ∧ t.status = .running ∧ t.pc = t.sp) :=
  ⟨⟨State.reset_mem_wf, by decide, _, rfl, rfl, rfl⟩, ⟨State.reset_mem_wf, by decide, _, rfl, rfl, rfl⟩⟩

/-- The same two cells written in either order. -/
theorem test_witness_MemoriesThatReadAlikeAreEqual :
    let m := (machine 0 0 0 0 0 [(3, 1), (9, 2)]).mem
    let m' := (machine 0 0 0 0 0 [(9, 2), (3, 5), (3, 1), (4, 0)]).mem
    m.WF ∧ m'.WF ∧ ∀ a : Nat, m.read a = m'.read a :=
  ⟨by decide, by decide, fun _ => rfl⟩

/-- An image of 256 bytes is loaded whole; one of 2 bytes leaves cells 2 to 255. -/
theorem test_witness_StartHoldsItsResetValues :
    ((List.replicate 256 (1#8)).length ≤ 256 ∧ 255 < (List.replicate 256 (1#8)).length)
    ∧ ([1#8, 2#8].length ≤ 256 ∧ 1 < [1#8, 2#8].length ∧ [1#8, 2#8].length ≤ 2 ∧ [1#8, 2#8].length ≤ 255) := by
  simp only [List.length_replicate]
  decide

theorem test_witness_ImageOver256BytesIsRefused : 256 < (List.replicate 257 (1#8)).length := by
  simp only [List.length_replicate]
  decide

/-- Two states that differ in IR and the latches only. -/
theorem test_witness_LatchesAreUnobservable :
    let s := machine 0 0 0 0 0xF4 []
    let s' := { s with ir := 300, latches := { n := 3, alu := true, pcm := true, nib := 5, ops := [1, 2, 3] } }
    s ≠ s' ∧ s.observable = s'.observable := by decide

theorem test_witness_OutputIsNeverReadBack :
    let s := machine 0 5 0 0 0xF4 [(0, 0x47)]
    step s = .next (after s) := step_after (by decide)

end Sys2Proof.Tests
end

section
/-! SUPPORT. The machine's invariant (`State.Inv`) step by step: what each state operation keeps of it, then an instruction's
effect, a fault, the first half of a cycle, and a step. -/

namespace Sys2Proof.Machine

/-! ### Values the mode allows -/

/-- A value a register, a cell or the output may hold: any in `legacy` mode, a byte in `strict8` mode (R10). -/
def State.Allows (s : State) (v : Nat) : Prop := s.config.arithMode = .strict8 → v ≤ 255

theorem State.allows_of_le (s : State) {v : Nat} (h : v ≤ 255) : s.Allows v := fun _ => h

theorem State.allows_clamp (s : State) (x : Int) : s.Allows (clamp x) := s.allows_of_le (clamp_le x)

theorem State.allows_narrow (s : State) (x : Nat) : s.Allows (s.narrow x) := fun h => State.narrow_le h x

theorem State.Inv.allows_reg {s : State} (h : s.Inv) (i : Fin 8) : s.Allows (s.reg i) := fun m => (h.eightBit m).regs i

theorem State.Inv.allows_read {s : State} (h : s.Inv) (a : Nat) : s.Allows (s.mem.read a) := fun m => (h.eightBit m).cells a

/-! ### One rule per state operation -/

section
variable {s : State} (h : s.Inv)
include h

theorem State.Inv.setReg (i : Fin 8) {v : Nat} (hv : s.Allows v) : (s.setReg i v).Inv where
  memory := h.memory
  pc := h.pc
  map := h.map
  operands := h.operands
  eightBit m :=
    { regs := fun j => by
        rw [State.reg_setReg]
        split
        · exact hv m
        · exact (h.eightBit m).regs j
      cells := (h.eightBit m).cells
      output := (h.eightBit m).output }

theorem State.Inv.decSp : s.decSp.Inv := h.setReg 7 (s.allows_clamp _)

theorem State.Inv.incSp : s.incSp.Inv := h.setReg 7 (s.allows_clamp _)

/-- A write at an address: memory stays canonical (R40), and a value the mode allows keeps the cells within it (R42). -/
theorem State.Inv.memWrite {a v : Nat} (ha : a ≤ 255) (hv : s.Allows v) : (s.memWrite a v).Inv where
  memory := Memory.write_wf h.memory ha v
  pc := h.pc
  map := h.map
  operands := h.operands
  eightBit m :=
    { regs := (h.eightBit m).regs
      cells := fun b => by
        rw [State.memWrite_mem, Memory.read_write h.memory]
        split
        · exact hv m
        · exact (h.eightBit m).cells b
      output := (h.eightBit m).output }

/-- The push of PUSH and CALL (R141, R144): the cell written is at the new SP, which is an address. -/
theorem State.Inv.push {v : Nat} (hv : s.Allows v) : (s.decSp.memWrite s.decSp.sp v).Inv :=
  h.decSp.memWrite s.decSp_sp_le hv

theorem State.Inv.emit {v : Nat} (hv : s.Allows v) : (s.emit v).Inv where
  memory := h.memory
  pc := h.pc
  map := h.map
  operands := h.operands
  eightBit m :=
    { regs := (h.eightBit m).regs
      cells := (h.eightBit m).cells
      output := fun w hw => by
        rw [State.emit_output, List.mem_append, List.mem_singleton] at hw
        rcases hw with hw | rfl
        · exact (h.eightBit m).output w hw
        · exact hv m }

/-- PC may be set to any value in 0..255 (R24). -/
theorem State.Inv.setPc {p : Nat} (hp : p ≤ 255) : { s with pc := p }.Inv where
  memory := h.memory
  pc := hp
  map := h.map
  operands := h.operands
  eightBit m := ⟨(h.eightBit m).regs, (h.eightBit m).cells, (h.eightBit m).output⟩

theorem State.Inv.advance (n : Nat) : (s.advance n).Inv := h.setPc (s.advance_pc_le n)

theorem State.Inv.jumpTo (t : Nat) : (s.jumpTo t).Inv := h.setPc (s.jumpTo_pc_le t)

/-- The flags and the status are not spoken of. -/
theorem State.Inv.setFlagsStatus (f : Flags) (st : Status) : { s with flags := f, status := st }.Inv where
  memory := h.memory
  pc := h.pc
  map := h.map
  operands := h.operands
  eightBit m := ⟨(h.eightBit m).regs, (h.eightBit m).cells, (h.eightBit m).output⟩

theorem State.Inv.faultWith (f : Fault) : (s.faultWith f).Inv := h.setFlagsStatus s.flags (.faulted f)

end

/-! ### A cycle -/

/-- The first half of a cycle latches at most the opcode's count of operands (R28) and changes nothing else but IR. -/
theorem LatchedFrom.inv {s s' : State} (h : LatchedFrom s s') (hs : s.Inv) : s'.Inv := by
  obtain ⟨op, l, rfl, hl⟩ := h
  refine ⟨hs.memory, hs.pc, hs.map, ?_, fun m => ?_⟩
  · rcases hl with rfl | hl
    · exact hs.operands
    · exact hl
  · exact ⟨(hs.eightBit m).regs, (hs.eightBit m).cells, (hs.eightBit m).output⟩

/-- Every instruction's effect keeps the invariant: what it writes is narrowed, clamped, or read from the state. -/
theorem Effect.inv {i : Instr} {s t : State} (h : Effect i s t) (hs : s.Inv) : t.Inv := by
  cases i <;> simp only [Effect] at h
  case hlt => subst h; exact hs.setFlagsStatus s.flags .halted
  case nop => subst h; exact hs.advance 0
  case prn => obtain ⟨a, -, rfl⟩ := h; exact (hs.emit (hs.allows_reg a)).advance 1
  case ldi => obtain ⟨a, -, rfl⟩ := h; exact (hs.setReg a (s.allows_narrow _)).advance 2
  case add | mul | and => obtain ⟨a, b, -, -, rfl⟩ := h; exact (hs.setReg a (s.allows_narrow _)).advance 2
  case ld =>
    obtain ⟨a, b, -, -, -, rfl⟩ := h
    exact (hs.setReg a (hs.allows_read _)).advance 2
  case cmp =>
    obtain ⟨a, b, -, -, rfl⟩ := h
    exact (hs.setFlagsStatus (Flags.compare (s.reg a) (s.reg b)) s.status).advance 2
  case inc | dec => obtain ⟨a, -, rfl⟩ := h; exact (hs.setReg a (s.allows_clamp _)).advance 1
  case push => obtain ⟨a, -, rfl⟩ := h; exact (hs.push (s.allows_narrow _)).advance 1
  case call => obtain ⟨a, -, rfl⟩ := h; exact (hs.push (s.allows_narrow _)).jumpTo _
  case pop => obtain ⟨a, -, -, rfl⟩ := h; exact (hs.setReg a (hs.allows_read _)).incSp.advance 1
  case ret => obtain ⟨-, rfl⟩ := h; exact hs.incSp.jumpTo _
  case jmp => obtain ⟨a, -, rfl⟩ := h; exact hs.jumpTo _
  case jeq | jne | jgt | jlt | jle | jge =>
    obtain ⟨a, -, rfl⟩ := h
    split <;> exact hs.jumpTo _

/-- An instruction keeps the invariant: its effect does, and a fault of its operands changes the status only (R178). -/
theorem exec_inv {i : Instr} {s t : State} (h : exec i s = .next t) (hs : s.Inv) : t.Inv := by
  rcases exec_cases h with he | ⟨f, -, rfl⟩
  · exact he.inv hs
  · exact hs.faultWith f

/-! ### The statements of 00_scope.md -/

/-- Settles O16: a step latches, then executes the instruction fetched or takes a fault, and each keeps the invariant. -/
theorem everyStepKeepsMachineInvariant : Obligations.EveryStepKeepsMachineInvariant := by
  intro s t hs h
  obtain ⟨-, ⟨f, s', -, hl, rfl⟩ | ⟨i, s', -, hl, he⟩⟩ := step_cases h
  · exact (hl.inv hs).faultWith f
  · exact exec_inv he (hl.inv hs)

/-- Settles O39, along the three cases of the clamp. -/
theorem clampAndMaskValues : Obligations.ClampAndMaskValues := by
  refine ⟨fun x => ⟨clamp_of_neg, clamp_of_gt, fun h0 h1 => ?_, fun h0 h1 => ?_⟩, fun x => rfl⟩
  · rw [clamp_of_mem h0 h1, Int.toNat_of_nonneg h0]
  · rcases clamp_cases x with ⟨hx, hc⟩ | ⟨hx, hc⟩ | ⟨hx0, hx1, hc⟩ <;> omega

end Sys2Proof.Machine
end

section
/-! SUPPORT. What an instruction leaves unchanged, said once, and the statements of 10_state.md about the flags, the output and
the registers. -/

namespace Sys2Proof.Machine

/-! ### The frame of an instruction -/

/-- What the effect of `i` leaves unchanged: the flags unless it is CMP, the output unless it is PRN, and the registers it
does not name. -/
structure Frame (i : Instr) (s t : State) : Prop where
  flags  : t.flags = s.flags ∨ ∃ a b : Fin 8, i = .cmp a b ∧ t.flags = Flags.compare (s.reg a) (s.reg b)
  output : t.output = s.output ∨ ∃ a : Fin 8, i = .prn a ∧ t.output = s.output ++ [s.reg a]
  regs   : ∀ j : Fin 8, j.val ∉ regsWritten i → t.reg j = s.reg j

/-- An effect that keeps the flags, the output and every register. -/
theorem Frame.of_kept {i : Instr} {s t : State} (hf : t.flags = s.flags) (ho : t.output = s.output) (hr : t.regs = s.regs) :
    Frame i s t := ⟨.inl hf, .inl ho, fun j _ => State.reg_of_regs hr j⟩

/-- A write of one register leaves the others. -/
theorem State.reg_setReg_of_ne (s : State) {i j : Fin 8} (h : j.val ≠ i.val) (v : Nat) : (s.setReg i v).reg j = s.reg j := by
  rw [State.reg_setReg, if_neg (fun e => h (congrArg Fin.val e))]

/-- An effect that keeps the flags and the output, and writes one register, which is named. -/
theorem Frame.of_setReg {i : Instr} {s t : State} {a : Fin 8} {v : Nat} (hf : t.flags = s.flags) (ho : t.output = s.output)
    (hr : t.regs = (s.setReg a v).regs) (ha : a.val ∈ regsWritten i) : Frame i s t :=
  ⟨.inl hf, .inl ho, fun j hj =>
    (State.reg_of_regs hr j).trans (s.reg_setReg_of_ne (fun e : j.val = a.val => hj (e ▸ ha)) v)⟩

/-- Every instruction's effect is within its frame. -/
theorem Effect.frame {i : Instr} {s t : State} (h : Effect i s t) : Frame i s t := by
  cases i <;> simp only [Effect] at h
  case hlt | nop => subst h; exact .of_kept rfl rfl rfl
  case jmp => obtain ⟨a, -, rfl⟩ := h; exact .of_kept rfl rfl rfl
  case jeq | jne | jgt | jlt | jle | jge =>
    obtain ⟨a, -, rfl⟩ := h
    split <;> exact .of_kept rfl rfl rfl
  case prn => obtain ⟨a, rfl, rfl⟩ := h; exact ⟨.inl rfl, .inr ⟨a, rfl, rfl⟩, fun _ _ => rfl⟩
  case cmp => obtain ⟨a, b, rfl, rfl, rfl⟩ := h; exact ⟨.inr ⟨a, b, rfl, rfl⟩, .inl rfl, fun _ _ => rfl⟩
  case ldi | inc | dec => obtain ⟨a, rfl, rfl⟩ := h; exact .of_setReg rfl rfl rfl List.mem_cons_self
  case add | mul | and => obtain ⟨a, b, rfl, rfl, rfl⟩ := h; exact .of_setReg rfl rfl rfl List.mem_cons_self
  case ld => obtain ⟨a, b, rfl, rfl, -, rfl⟩ := h; exact .of_setReg rfl rfl rfl List.mem_cons_self
  case push | call => obtain ⟨a, -, rfl⟩ := h; exact .of_setReg (a := 7) rfl rfl rfl List.mem_cons_self
  case ret => obtain ⟨-, rfl⟩ := h; exact .of_setReg (a := 7) rfl rfl rfl List.mem_cons_self
  case pop =>
    obtain ⟨a, rfl, -, rfl⟩ := h
    refine ⟨.inl rfl, .inl rfl, fun j hj => ?_⟩
    obtain ⟨ha, h7⟩ : j.val ≠ a.val ∧ j.val ≠ (7 : Fin 8).val := by simpa [regsWritten, Fin.ext_iff] using hj
    exact ((s.setReg a _).reg_setReg_of_ne h7 _).trans (s.reg_setReg_of_ne ha _)

/-- An instruction stays within its frame: its effect does, and a fault of its operands changes the status only (R178). -/
theorem exec_frame {i : Instr} {s t : State} (h : exec i s = .next t) : Frame i s t := by
  rcases exec_cases h with he | ⟨f, -, rfl⟩
  · exact he.frame
  · exact .of_kept rfl rfl rfl

/-- The frame of a step: it takes a fault, which keeps all three, or stays within the frame of the instruction fetched. -/
theorem step_frame {s t : State} (h : step s = .next t) :
    (t.flags = s.flags ∧ t.output = s.output ∧ t.regs = s.regs) ∨ ∃ i s', s.fetch = .instr i s' ∧ Frame i s t := by
  obtain ⟨-, ⟨f, s', -, ⟨op, l, rfl, -⟩, rfl⟩ | ⟨i, s', hi, ⟨op, l, rfl, -⟩, he⟩⟩ := step_cases h
  · exact .inl ⟨rfl, rfl, rfl⟩
  · obtain ⟨hf, ho, hr⟩ := exec_frame he
    exact .inr ⟨i, _, hi, hf, ho, hr⟩

/-! ### The flags (R30, R125) -/

/-- A comparison sets exactly one flag. -/
theorem Flags.compare_oneHot (a b : Nat) : (Flags.compare a b).oneHot = true := by
  unfold Flags.compare
  split
  · rfl
  · split <;> rfl

/-- Settles O21: a step keeps the flags or writes them by a comparison. -/
theorem oneFlagStaysSet : Obligations.OneFlagStaysSet := by
  refine ⟨fun s t hs h => ?_, fun s a b => ?_⟩
  · rcases step_frame h with ⟨hf, -, -⟩ | ⟨i, s', -, hi⟩
    · rwa [hf]
    · obtain hf | ⟨a, b, -, hf⟩ := hi.flags
      · rwa [hf]
      · rw [hf]
        exact Flags.compare_oneHot _ _
  · rw [exec_cmp, withRegs_fin]
    exact ⟨_, rfl, Flags.compare_oneHot _ _⟩

/-! ### The output (R33, R106) -/

/-- Settles O24, by the frame of the instruction fetched. -/
theorem outputGrowsOnlyByPrn : Obligations.OutputGrowsOnlyByPrn := by
  intro s t h
  rcases step_frame h with ⟨-, ho, -⟩ | ⟨i, s', hi, hF⟩
  · exact .inl ho
  · obtain ho | ⟨a, rfl, ho⟩ := hF.output
    · exact .inl ho
    · exact .inr ⟨a, s', hi, ho⟩

/-! ### The registers (R21, R22) -/

/-- Settles O25, by the frame of the instruction. -/
theorem registersChangeOnlyAsNamed : Obligations.RegistersChangeOnlyAsNamed := by
  intro i s t j h hne
  by_contra hj
  exact hne ((exec_frame h).regs j hj)

end Sys2Proof.Machine
end

section
/-! SUPPORT. The invariant along a run: it holds of every state the host's moves start a run from, and every step keeps it. -/

namespace Sys2Proof.Machine

/-! ### The host's moves -/

theorem byte_toNat_le (b : Byte) : b.toNat ≤ 255 := Nat.le_of_lt_succ b.isLt

/-- REG_INIT and SP's reset value are bytes (R37). -/
theorem RegInit.get_regs_le (r : RegInit) (i : Fin 8) : r.regs.get i ≤ 255 := by
  obtain ⟨i, hi⟩ := i
  interval_cases i
  exacts [byte_toNat_le _, byte_toNat_le _, byte_toNat_le _, byte_toNat_le _, byte_toNat_le _, byte_toNat_le _,
    byte_toNat_le _, (by decide : 0xF4 ≤ 255)]

/-- Loading bytes keeps every cell within 0..255. -/
theorem Memory.read_writeBytes_le {m : Memory} (hm : m.WF) (h : ∀ a, m.read a ≤ 255) {bs : List Byte}
    (hbs : bs.length ≤ 256) (c : Nat) : (m.writeBytes 0 bs).read c ≤ 255 := by
  rw [Memory.read_writeBytes hm (by omega)]
  split
  · exact byte_toNat_le _
  · exact h c

/-- What `construct` answers meets the invariant (R37, R190). -/
theorem construct_inv {c : Config} (hc : c.opcodeMap.Valid) (v : StartValues) : (construct c v).Inv := by
  have hlen : (v.memInit.take 256).length ≤ 256 := List.length_take_le _ _
  exact
    { memory := Memory.writeBytes_wf Memory.wf_nil (by omega)
      pc := Nat.zero_le _
      map := hc
      operands := Nat.zero_le _
      eightBit := fun _ =>
        { regs := v.regInit.get_regs_le
          cells := Memory.read_writeBytes_le Memory.wf_nil (fun _ => Nat.zero_le _) hlen
          output := fun _ h => absurd h List.not_mem_nil } }

/-- Loading an image keeps the invariant (R193). -/
theorem load_inv {image : List Byte} {s t : State} (h : load image s = .next t) (hs : s.Inv) : t.Inv := by
  unfold load at h
  split at h
  · split at h
    · cases h
      exact
        { memory := Memory.writeBytes_wf hs.memory (by omega)
          pc := hs.pc
          map := hs.map
          operands := hs.operands
          eightBit := fun m =>
            { regs := (hs.eightBit m).regs
              cells := Memory.read_writeBytes_le hs.memory (hs.eightBit m).cells ‹_›
              output := (hs.eightBit m).output } }
    · cases h
  all_goals cases h

/-- Invoking keeps the invariant, which does not speak of the status (R191). -/
theorem invoke_inv {s t : State} (h : invoke s = .next t) (hs : s.Inv) : t.Inv := by
  unfold invoke at h
  split at h
  · cases h
    exact hs.setFlagsStatus s.flags .running
  all_goals cases h

/-- The state a run starts from meets the invariant, for every image and every start value the source leaves free. -/
theorem start_inv {c : Config} (hc : c.opcodeMap.Valid) {v : StartValues} {source : Option (List Byte)} {s : State}
    (h : start c v source = .next s) : s.Inv := by
  unfold start at h
  split at h
  · exact invoke_inv h (load_inv ‹_› (construct_inv hc v))
  all_goals cases h

/-! ### Runs -/

/-- What every step keeps holds at the end of a run if it held at its start. -/
theorem Run.keeps {P : State → Prop} (hstep : ∀ s t, P s → step s = .next t → P t) {s t : State} (h : Run s t) (hs : P s) :
    P t := by
  induction h with
  | refl => exact hs
  | cons h1 _ ih => exact ih (hstep _ _ hs h1)

/-- Settles O55: construct, load and invoke compute the reset state. -/
theorem resetIsTheDefaultStart : Obligations.ResetIsTheDefaultStart := ⟨rfl, rfl, rfl, rfl, rfl⟩

/-- Settles O17: the reset state is a start of a run. -/
theorem resetMeetsMachineInvariant : Obligations.ResetMeetsMachineInvariant :=
  start_inv OpcodeMap.default_valid resetIsTheDefaultStart.1

/-- Settles O19: the start meets the invariant and every step keeps it. -/
theorem everyRunStaysWithinTheInvariant : Obligations.EveryRunStaysWithinTheInvariant :=
  fun _ _ _ _ _ hc hstart hrun => hrun.keeps everyStepKeepsMachineInvariant (start_inv hc hstart)

end Sys2Proof.Machine
end

section
/-! SUPPORT. Noninterference: a relation between states that the writes of a cycle keep is kept by a step. Its two uses are
states that differ in IR and the latches only, and states that differ in what was emitted before. -/

namespace Sys2Proof.Machine

/-! ### Relations the writes of a cycle keep -/

/-- Two outcomes of one kind: related next states, or the same reason to stop. -/
inductive OutcomesAgree (R : State → State → Prop) :
    Host.Outcome State Fault Refusal → Host.Outcome State Fault Refusal → Prop
  | next {s u : State} (h : R s u) : OutcomesAgree R (.next s) (.next u)
  | fault (f : Fault) : OutcomesAgree R (.fault f) (.fault f)
  | refused (r : Refusal) : OutcomesAgree R (.refused r) (.refused r)

/-- Two ends of the first half of a cycle: the same instruction, fault or broken row, with related states. -/
inductive FetchesAgree (R : State → State → Prop) : Fetched → Fetched → Prop
  | instr (i : Instr) {s u : State} (h : R s u) : FetchesAgree R (.instr i s) (.instr i u)
  | trap (f : Fault) {s u : State} (h : R s u) : FetchesAgree R (.trap f s) (.trap f u)
  | badMap (k : Mnemonic) : FetchesAgree R (.badMap k) (.badMap k)

/-- A relation between states that differ at most in IR, the latches and the output, which the writes of a cycle keep. -/
structure Simulation (R : State → State → Prop) : Prop where
  unread      : ∀ {s u}, R s u → ∃ r l o, u = { s with ir := r, latches := l, output := o }
  latchOpcode : ∀ {s u}, R s u → ∀ op, R (s.latchOpcode op) (u.latchOpcode op)
  latchDecode : ∀ {s u}, R s u → ∀ op ops, R (s.latchDecode op ops) (u.latchDecode op ops)
  update      : ∀ {s u}, R s u → ∀ regs pc flags status mem,
    R { s with regs := regs, pc := pc, flags := flags, status := status, mem := mem }
      { u with regs := regs, pc := pc, flags := flags, status := status, mem := mem }
  emit        : ∀ {s u}, R s u → ∀ v, R (s.emit v) (u.emit v)

/-- What an operand fetch answers does not depend on IR, the latches and the output. -/
theorem State.fetchOperands_unread (s : State) (r : Nat) (l : Latches) (o : List Nat) (k count : Nat) :
    { s with ir := r, latches := l, output := o }.fetchOperands k count = s.fetchOperands k count := by
  induction count generalizing k with
  | zero => rfl
  | succ count ih =>
    simp only [State.fetchOperands, ih]
    rfl

section
variable {R : State → State → Prop} (hR : Simulation R) {s u : State} (h : R s u)
include hR h

theorem Simulation.mem_eq : u.mem = s.mem := by
  obtain ⟨r, l, o, rfl⟩ := hR.unread h
  rfl

theorem Simulation.status_eq : u.status = s.status := by
  obtain ⟨r, l, o, rfl⟩ := hR.unread h
  rfl

theorem Simulation.raise (f : Fault) : OutcomesAgree R (raise f s) (raise f u) := by
  obtain ⟨r, l, o, rfl⟩ := hR.unread h
  exact .next (hR.update h s.regs s.pc s.flags (.faulted f) s.mem)

theorem Simulation.withReg (r : Nat) {k k' : Fin 8 → Host.Outcome State Fault Refusal}
    (hk : ∀ a, OutcomesAgree R (k a) (k' a)) : OutcomesAgree R (withReg r s k) (withReg r u k') := by
  rcases lt_or_ge r 8 with hr | hr
  · rw [withReg_of_lt hr, withReg_of_lt hr]
    exact hk _
  · rw [withReg_of_ge hr, withReg_of_ge hr]
    exact hR.raise h _

theorem Simulation.withRegs (rA rB : Nat) {k k' : Fin 8 → Fin 8 → Host.Outcome State Fault Refusal}
    (hk : ∀ a b, OutcomesAgree R (k a b) (k' a b)) : OutcomesAgree R (withRegs rA rB s k) (withRegs rA rB u k') :=
  hR.withReg h rA fun a => hR.withReg h rB fun b => hk a b

theorem Simulation.withCell (a : Nat) {k k' : Nat → Host.Outcome State Fault Refusal}
    (hk : ∀ v, OutcomesAgree R (k v) (k' v)) : OutcomesAgree R (withCell a s k) (withCell a u k') := by
  rcases le_or_gt a 255 with ha | ha
  · rw [withCell_of_le ha, withCell_of_le ha, hR.mem_eq h]
    exact hk _
  · rw [withCell_of_gt ha, withCell_of_gt ha]
    exact hR.raise h _

/-- An instruction reads none of IR, the latches and the output, so from related states it makes the same writes. -/
theorem Simulation.exec (i : Instr) : OutcomesAgree R (exec i s) (exec i u) := by
  obtain ⟨r, l, o, rfl⟩ := hR.unread h
  cases i <;> simp only [exec_hlt, exec_ldi, exec_ld, exec_prn, exec_nop, exec_push, exec_pop, exec_call, exec_ret, exec_jmp,
    exec_jeq, exec_jne, exec_jgt, exec_jlt, exec_jle, exec_jge, exec_add, exec_mul, exec_cmp, exec_and, exec_inc, exec_dec]
  case hlt | nop => exact .next (hR.update h ..)
  case prn rA => exact hR.withReg h rA fun a => .next (hR.update (hR.emit h _) ..)
  case ld rA rB => exact hR.withRegs h rA rB fun a b => hR.withCell h _ fun v => .next (hR.update h ..)
  case pop rA => exact hR.withReg h rA fun a => hR.withCell h _ fun v => .next (hR.update h ..)
  case ret => exact hR.withCell h _ fun v => .next (hR.update h ..)
  case add rA rB | mul rA rB | and rA rB | cmp rA rB => exact hR.withRegs h rA rB fun a b => .next (hR.update h ..)
  case jeq rA | jne rA | jgt rA | jlt rA | jle rA | jge rA =>
    refine hR.withReg h rA fun a => .next ?_
    split <;> exact hR.update h ..
  case ldi rA _ | push rA | call rA | jmp rA | inc rA | dec rA => exact hR.withReg h rA fun a => .next (hR.update h ..)

/-- The first half of a cycle fetches the same from related states, and what it latches keeps them related. -/
theorem Simulation.fetch : FetchesAgree R s.fetch u.fetch := by
  have hop := hR.latchOpcode h
  have hdec (op b ops) := hR.latchDecode (hop op) b ops
  obtain ⟨r, l, o, rfl⟩ := hR.unread h
  have hread (a : Nat) : { s with ir := r, latches := l, output := o }.memRead a = s.memRead a := rfl
  simp only [State.fetch, hread, State.fetchOperands_unread]
  split
  · exact .trap _ h
  · split
    · exact .trap _ (hop _)
    · split
      · exact .trap _ (hdec _ _ _)
      · split
        · exact .instr _ (hdec _ _ _)
        · exact .badMap _
        · exact .trap _ (hdec _ _ _)

/-- A step keeps the relation, and stops for the same reason in both states. -/
theorem Simulation.step : OutcomesAgree R (step s) (step u) := by
  rcases hs : s.status with _ | _ | _ | f
  case running =>
    rw [step_running hs, step_running ((hR.status_eq h).trans hs)]
    have hf := hR.fetch h
    generalize s.fetch = a, u.fetch = b at hf ⊢
    cases hf with
    | instr i h' => exact hR.exec h' i
    | trap f h' => exact hR.raise h' f
    | badMap k => exact .refused _
  all_goals
    rw [Machine.step, Machine.step, hR.status_eq h, hs]
    constructor

end

/-! ### IR and the latches (R28, R36) -/

/-- States that look the same to a program go on looking the same. -/
theorem simulation_observable : Simulation (fun s u => s.observable = u.observable) where
  unread {s u} h := by
    cases s; cases u
    simp only [State.observable, State.mk.injEq] at h
    obtain ⟨rfl, rfl, -, -, rfl, rfl, rfl, rfl, rfl⟩ := h
    exact ⟨_, _, _, rfl⟩
  latchOpcode h _ := h
  latchDecode h _ _ := h
  update h regs pc flags status mem := congrArg
    (fun x : State => { x with regs := regs, pc := pc, flags := flags, status := status, mem := mem }) h
  emit h v := congrArg (fun x => State.emit x v) h

/-- Settles O56: equal observable states are related by a simulation, so their steps agree. -/
theorem latchesAreUnobservable : Obligations.LatchesAreUnobservable := by
  intro s s' h
  have hstep := simulation_observable.step h
  generalize step s = a, step s' = b at hstep ⊢
  cases hstep with
  | next => assumption
  | fault | refused => rfl

/-! ### The output (R33, R182) -/

/-- `u` is `s`, and each has emitted the same values after its own earlier output. -/
def SameSince (o o' : List Nat) (s u : State) : Prop :=
  ∃ w, s.output = o ++ w ∧ u = { s with output := o' ++ w }

/-- States that differ in their earlier output only go on emitting the same values. -/
theorem simulation_sameSince (o o' : List Nat) : Simulation (SameSince o o') where
  unread := fun ⟨w, _, hu⟩ => ⟨_, _, o' ++ w, hu⟩
  latchOpcode := by rintro s _ ⟨w, hs, rfl⟩ op; exact ⟨w, hs, rfl⟩
  latchDecode := by rintro s _ ⟨w, hs, rfl⟩ op ops; exact ⟨w, hs, rfl⟩
  update := by rintro s _ ⟨w, hs, rfl⟩ regs pc flags status mem; exact ⟨w, hs, rfl⟩
  emit := by
    rintro s _ ⟨w, hs, rfl⟩ v
    exact ⟨w ++ [v], by rw [State.emit_output, hs, List.append_assoc], by simp only [State.emit, List.append_assoc]⟩

/-- Settles O57: a state and the same state with another earlier output are related by a simulation, so their steps agree. -/
theorem outputIsNeverReadBack : Obligations.OutputIsNeverReadBack := by
  intro s t o h
  have hR : SameSince s.output o s { s with output := o } := ⟨[], by simp, by simp⟩
  have hstep := (simulation_sameSince s.output o).step hR
  rw [h] at hstep
  generalize step { s with output := o } = b at hstep ⊢
  obtain ⟨w, hw, rfl⟩ := hstep
  exact ⟨w, hw, rfl⟩

end Sys2Proof.Machine
end

section
/-! SUPPORT. The statements of 20_memory.md: memory's canonical form is unique, only PUSH and CALL write it, and what they write
is what the next cycle fetches from that address. -/

namespace Sys2Proof.Machine

/-! ### The canonical form (R40) -/

/-- Two memories that read alike: the first listed address of one is not above the other's. -/
theorem Memory.head_addr_le {b w c x : Nat} {m m' : Memory} (hm : Memory.WF ((b, w) :: m)) (hm' : Memory.WF ((c, x) :: m'))
    (h : ∀ a, Memory.read ((b, w) :: m) a = Memory.read ((c, x) :: m') a) : c ≤ b := by
  obtain ⟨p, hp, rfl⟩ := Memory.head_le_of_read hm h hm'
  obtain ⟨hrest, -⟩ := Memory.wf_cons.1 hm'
  rcases List.mem_cons.1 hp with rfl | hp
  · exact le_rfl
  · exact (hrest p hp).le

/-- What the rest of a memory reads: the listed cell as unlisted, every other one as before. -/
theorem Memory.read_tail {b w : Nat} {m : Memory} (hm : Memory.WF ((b, w) :: m)) (a : Nat) :
    m.read a = if a = b then 0 else Memory.read ((b, w) :: m) a := by
  split
  · subst_vars
    exact Memory.read_of_lt (Memory.wf_cons.1 hm).1
  · rw [Memory.read_cons, if_neg ‹_›]

/-- Settles O51, by induction on both lists: their first cells agree, and then their rests read alike. -/
theorem memoriesThatReadAlikeAreEqual : Obligations.MemoriesThatReadAlikeAreEqual := by
  intro m
  induction m with
  | nil =>
    rintro (_ | ⟨q, m'⟩) hm hm' h
    · rfl
    · obtain ⟨p, hp, -⟩ := Memory.head_le_of_read hm' (fun a => (h a).symm) hm
      exact absurd hp List.not_mem_nil
  | cons q m ih =>
    obtain ⟨b, w⟩ := q
    rintro (_ | ⟨⟨c, x⟩, m'⟩) hm hm' h
    · obtain ⟨p, hp, -⟩ := Memory.head_le_of_read hm h hm'
      exact absurd hp List.not_mem_nil
    · obtain rfl : b = c :=
        le_antisymm (Memory.head_addr_le hm' hm fun a => (h a).symm) (Memory.head_addr_le hm hm' h)
      obtain rfl : w = x := by simpa [Memory.read_cons] using h b
      obtain ⟨-, -, -, hrest⟩ := Memory.wf_cons.1 hm
      obtain ⟨-, -, -, hrest'⟩ := Memory.wf_cons.1 hm'
      rw [ih m' hrest hrest' fun a => by rw [Memory.read_tail hm, Memory.read_tail hm', h]]

/-! ### What writes memory (R41) -/

/-- An effect keeps memory unless it is that of PUSH or CALL. -/
theorem Effect.mem_eq {i : Instr} {s t : State} (h : Effect i s t) :
    t.mem = s.mem ∨ ∃ a : Fin 8, i = .push a ∨ i = .call a := by
  cases i <;> simp only [Effect] at h
  case push => obtain ⟨a, rfl, -⟩ := h; exact .inr ⟨a, .inl rfl⟩
  case call => obtain ⟨a, rfl, -⟩ := h; exact .inr ⟨a, .inr rfl⟩
  case hlt | nop => subst h; exact .inl rfl
  case ret => obtain ⟨-, rfl⟩ := h; exact .inl rfl
  case pop => obtain ⟨a, -, -, rfl⟩ := h; exact .inl rfl
  case ld => obtain ⟨a, b, -, -, -, rfl⟩ := h; exact .inl rfl
  case add | mul | cmp | and => obtain ⟨a, b, -, -, rfl⟩ := h; exact .inl rfl
  case jeq | jne | jgt | jlt | jle | jge => obtain ⟨a, -, rfl⟩ := h; left; split <;> rfl
  case ldi | prn | jmp | inc | dec => obtain ⟨a, -, rfl⟩ := h; exact .inl rfl

/-- Settles O23: a step takes a fault, which keeps memory, or has the effect of the instruction fetched. -/
theorem memoryChangesOnlyByPushAndCall : Obligations.MemoryChangesOnlyByPushAndCall := by
  intro s t h
  obtain ⟨-, ⟨f, s', -, ⟨op, l, rfl, -⟩, rfl⟩ | ⟨i, s', hi, ⟨op, l, rfl, -⟩, he⟩⟩ := step_cases h
  · exact .inl rfl
  · rcases exec_cases he with he | ⟨f, -, rfl⟩
    · obtain hm | ⟨a, rfl | rfl⟩ := he.mem_eq
      · exact .inl hm
      · exact .inr ⟨a, _, .inl hi⟩
      · exact .inr ⟨a, _, .inr hi⟩
    · exact .inl rfl

/-! ### What a cycle latches of the opcode cell (R81, R85) -/

/-- An operand fetch that no fault ended has fetched the asked number of operands. -/
theorem State.fetchOperands_length_of_none {s : State} {k count : Nat} (h : (s.fetchOperands k count).2 = none) :
    (s.fetchOperands k count).1.length = count := by
  induction count generalizing k with
  | zero => rfl
  | succ count ih =>
    rw [State.fetchOperands] at h ⊢
    split at h
    · cases h
    · rw [List.length_cons, ih h]

/-- Under a valid map the operands that an opcode byte counts fit the mnemonic of its row. -/
theorem dispatch_ne_arityMismatch {m : OpcodeMap} (hm : m.Valid) {op : Byte} {ops : List Nat}
    (h : ops.length = (fieldsOf op).n.toNat) (k : Mnemonic) : dispatch m op ops ≠ .error (.arityMismatch k) := by
  unfold dispatch
  cases hrow : m.lookup op with
  | none => simp
  | some k' =>
    have hlen : ops.length = k'.arity := by rw [h, ← OpcodeMap.code_of_lookup hrow, OpcodeMap.count_code hm]
    obtain ⟨i, hi⟩ := Instr.assemble_isSome hlen
    simp [hi]

/-- The first half of a cycle at a PC in range ends with an instruction or a fault, and IR holds the opcode cell. -/
theorem State.fetch_cases {s : State} (hm : s.config.opcodeMap.Valid) (hpc : s.pc ≤ 255) :
    ∃ s', s'.ir = s.opcode ∧ ((∃ i, s.fetch = .instr i s') ∨ ∃ f, s.fetch = .trap f s') := by
  unfold State.fetch
  rw [memRead_of_le hpc]
  dsimp only
  split
  · exact ⟨_, rfl, .inr ⟨_, rfl⟩⟩
  · split
    · exact ⟨_, rfl, .inr ⟨_, rfl⟩⟩
    · split
      · exact ⟨_, rfl, .inl ⟨_, rfl⟩⟩
      · exact absurd ‹_› (dispatch_ne_arityMismatch hm (State.fetchOperands_length_of_none ‹_›) _)
      · exact ⟨_, rfl, .inr ⟨_, rfl⟩⟩

/-- No instruction writes IR or the decoder latches, whether it has its effect or faults. -/
theorem exec_latched {i : Instr} {s t : State} (h : exec i s = .next t) : t.ir = s.ir ∧ t.latches = s.latches := by
  rcases exec_cases h with he | ⟨f, -, rfl⟩
  · exact he.latched_eq
  · exact ⟨rfl, rfl⟩

/-- A running machine under a valid map steps, and its IR then holds the opcode cell (R81). -/
theorem step_latches_opcode {s : State} (hrun : s.status = .running) (hm : s.config.opcodeMap.Valid) (hpc : s.pc ≤ 255) :
    ∃ t, step s = .next t ∧ t.ir = s.opcode := by
  obtain ⟨s', hir, ⟨i, hi⟩ | ⟨f, hf⟩⟩ := State.fetch_cases hm hpc
  · obtain ⟨t, ht⟩ := exec_total i s'
    exact ⟨t, by rw [step_running hrun, hi]; exact ht, (exec_latched ht).1.trans hir⟩
  · exact ⟨s'.faultWith f, by rw [step_running hrun, hf]; rfl, hir⟩

/-! ### A store and the next fetch (R53, R198) -/

/-- The two spellings of what ARITH_MODE stores. -/
theorem State.narrow_eq_stored (s : State) (v : Nat) : s.narrow v = stored s.config.arithMode v := by
  rw [State.narrow_eq]
  cases s.config.arithMode <;> rfl

/-- A machine whose memory is a canonical one with `v` stored at PC latches `v` in its next cycle. -/
theorem step_latches_store {t : State} {m : Memory} {v : Nat} (hm : m.WF) (hmem : t.mem = m.write t.pc v)
    (hrun : t.status = .running) (hmap : t.config.opcodeMap.Valid) (hpc : t.pc ≤ 255) :
    ∃ u, step t = .next u ∧ u.ir = v := by
  obtain ⟨u, hu, hir⟩ := step_latches_opcode hrun hmap hpc
  exact ⟨u, hu, by rw [hir, State.opcode, hmem, Memory.read_write_self hm]⟩

/-- Settles O50: PUSH and CALL store at SP, where PC then is, and the next cycle latches the opcode cell. -/
theorem nextFetchSeesTheStore : Obligations.NextFetchSeesTheStore := by
  intro s t a hm hmap hrun hpc
  refine ⟨fun h => ?_, fun h => ?_⟩
  · rw [exec_push, withReg_fin] at h
    cases h
    rw [← State.narrow_eq_stored]
    exact step_latches_store hm (hpc ▸ rfl) hrun hmap (State.advance_pc_le _ _)
  · rw [exec_call, withReg_fin] at h
    cases h
    rw [← State.narrow_eq_stored]
    exact step_latches_store hm (hpc ▸ rfl) hrun hmap (State.jumpTo_pc_le _ _)

end Sys2Proof.Machine
end

section
/-! SUPPORT. The statements of 30_encoding.md about the decoder and the encoder: the fields of an opcode byte, and when dispatch
and `decode` answer an instruction, said once. -/

namespace Sys2Proof.Laws.Assembly

/-- The family over all instructions. -/
theorem statement (i : Instr) : Statement i := by
  cases i
  exacts [hlt, ldi _ _, ld _ _, prn _, nop, push _, pop _, call _, ret, jmp _, jeq _, jne _, jgt _, jlt _, jle _, jge _,
    add _ _, mul _ _, cmp _ _, and _ _, inc _, dec _]

end Sys2Proof.Laws.Assembly

namespace Sys2Proof

/-! ### The opcode byte (R61, R67, R68) -/

/-- Bits 7:6 of a byte are its value over 64. -/
theorem fieldsOf_n (b : Byte) : (fieldsOf b).n.toNat = b.toNat / 64 := by
  have hb : b.toNat < 256 := b.isLt
  rw [fieldsOf, BitVec.extractLsb'_toNat, Nat.shiftRight_eq_div_pow]
  omega

/-- Settles O6: a field is a shift and a mask of the byte's value, a bit of it the parity of a quotient. -/
theorem fieldsOfTheOpcodeByte : Obligations.FieldsOfTheOpcodeByte := fun b =>
  ⟨fieldsOf_n b, Nat.testBit_eq_decide_div_mod_eq, Nat.testBit_eq_decide_div_mod_eq, BitVec.extractLsb'_toNat ..⟩

/-- No mnemonic has more than two operands (R67). -/
theorem Mnemonic.arity_le_two (k : Mnemonic) : k.arity ≤ 2 := by cases k <;> decide

/-- The values of a map's 22 opcode bytes. -/
def OpcodeMap.codes (m : OpcodeMap) : List Nat := Mnemonic.all.map (fun k => (m.code k).toNat)

/-- A valid map has 22 of them, all distinct (R67). -/
theorem OpcodeMap.card_codes {m : OpcodeMap} (h : m.Valid) : m.codes.toFinset.card = 22 := by
  have hnodup : m.codes.Nodup := by
    simpa [OpcodeMap.codes, Function.comp_def] using h.1.map BitVec.toNat_injective
  rw [List.toFinset_card_of_nodup hnodup, OpcodeMap.codes, List.length_map]
  rfl

/-- An opcode is a byte value. -/
theorem OpcodeMap.codes_subset_range (m : OpcodeMap) : m.codes.toFinset ⊆ Finset.range 256 := by
  intro v hv
  obtain ⟨k, -, rfl⟩ := List.mem_map.1 (List.mem_toFinset.1 hv)
  exact Finset.mem_range.2 (m.code k).isLt

/-- A byte value is unrecognised (R68) exactly when it is none of the map's. -/
theorem OpcodeMap.lookup_isNone_iff {m : OpcodeMap} {v : Nat} (hv : v < 256) :
    (m.lookup (BitVec.ofNat 8 v)).isNone ↔ v ∉ m.codes := by
  rw [Option.isNone_iff_eq_none, OpcodeMap.lookup_eq_none]
  simp [OpcodeMap.codes, Mnemonic.mem_all, ← BitVec.toNat_inj, Nat.mod_eq_of_lt hv]

/-- Every valid map leaves 256 - 22 byte values unrecognised. -/
theorem OpcodeMap.length_unrecognised {m : OpcodeMap} (h : m.Valid) :
    ((List.range 256).filter (fun v => (m.lookup (BitVec.ofNat 8 v)).isNone)).length = 234 := by
  have hset : ((List.range 256).filter (fun v => (m.lookup (BitVec.ofNat 8 v)).isNone)).toFinset
      = Finset.range 256 \ m.codes.toFinset := by
    ext v
    simp +contextual [OpcodeMap.lookup_isNone_iff, -Option.isNone_iff_eq_none]
  rw [← List.toFinset_card_of_nodup (List.nodup_range.filter _), hset,
    Finset.card_sdiff_of_subset m.codes_subset_range, OpcodeMap.card_codes h, Finset.card_range]

/-- Settles O4: the default map is valid, and 234 is every valid map's number of unrecognised bytes. -/
theorem defaultMapMeetsItsConstraints : Obligations.DefaultMapMeetsItsConstraints :=
  ⟨OpcodeMap.default_valid, OpcodeMap.length_unrecognised OpcodeMap.default_valid⟩

/-! ### Decoding and encoding (R60, R62, R64) -/

/-- Dispatch answers an instruction exactly on its mnemonic's row and its own operands (R85, R86). -/
theorem dispatch_eq_ok {m : OpcodeMap} {op : Byte} {ops : List Nat} {i : Instr} :
    dispatch m op ops = .ok i ↔ m.lookup op = some i.mnemonic ∧ i.operands = ops := by
  constructor
  · intro h
    unfold dispatch at h
    split at h
    · cases h
    · split at h <;> cases h
      obtain ⟨rfl, rfl⟩ := Instr.assemble_some ‹_›
      exact ⟨‹_›, rfl⟩
  · rintro ⟨hrow, rfl⟩
    have hi : Instr.assemble i.mnemonic i.operands = some i := Laws.Assembly.statement i
    simp [dispatch, hrow, hi]

/-- Cells decode to an instruction exactly when the first is a byte, the counted operand cells follow it, and dispatch
answers the instruction; what follows them is the rest (R60). -/
theorem decode_cons_eq_ok {m : OpcodeMap} {op : Nat} {cells rest : List Nat} {i : Instr} :
    decode m (op :: cells) = .ok (i, rest) ↔
      op ≤ 255 ∧ op / 64 ≤ cells.length ∧ dispatch m (BitVec.ofNat 8 op) (cells.take (op / 64)) = .ok i
        ∧ rest = cells.drop (op / 64) := by
  rw [decode]
  split
  case isTrue hop => simp [not_le.2 hop]
  case isFalse hop =>
    rw [fieldsOf_n, byte_toNat_of_le (not_lt.1 hop)]
    dsimp only
    split
    case isTrue hlen => simp [not_le.2 hlen]
    case isFalse hlen =>
      cases dispatch m (BitVec.ofNat 8 op) (cells.take (op / 64)) with
      | error e => simp
      | ok i' => simp [not_lt.1 hop, not_lt.1 hlen, eq_comm (a := rest)]

/-- Settles O1: the encoded opcode selects its own row (R67), and its count takes exactly the operands. -/
theorem decodeOfEncodeIsTheInstruction : Obligations.DecodeOfEncodeIsTheInstruction := by
  intro m hm i rest
  have hcount : (m.code i.mnemonic).toNat / 64 = i.operands.length := by
    rw [← fieldsOf_n, OpcodeMap.count_code hm, Instr.length_operands]
  refine decode_cons_eq_ok.2 ⟨Nat.le_of_lt_succ (m.code i.mnemonic).isLt, ?_, dispatch_eq_ok.2 ⟨?_, ?_⟩, ?_⟩
  · simp [hcount]
  · rw [byte_of_toNat, OpcodeMap.lookup_code hm]
  · exact hcount ▸ List.take_left.symm
  · exact hcount ▸ List.drop_left.symm

/-- Settles O2: the opcode's row gives back its byte, and the operands and the rest are the two parts of the other cells. -/
theorem encodeOfDecodeIsTheCells : Obligations.EncodeOfDecodeIsTheCells := by
  intro m cells i rest h
  cases cells with
  | nil => cases h
  | cons op cells =>
    obtain ⟨hop, -, hi, rfl⟩ := decode_cons_eq_ok.1 h
    obtain ⟨hrow, hops⟩ := dispatch_eq_ok.1 hi
    rw [encode, OpcodeMap.code_of_lookup hrow, byte_toNat_of_le hop, hops, List.cons_append, List.take_append_drop]

/-- Settles O5: the row's count is its mnemonic's arity (R67), which is at most 2. -/
theorem opcodeByteFixesTheLength : Obligations.OpcodeByteFixesTheLength := by
  intro m hm op cells rest i h
  obtain ⟨hop, -, hi, hrest⟩ := decode_cons_eq_ok.1 h
  obtain ⟨hrow, hops⟩ := dispatch_eq_ok.1 hi
  have harity : i.mnemonic.arity = op / 64 := by
    rw [← OpcodeMap.count_code hm, OpcodeMap.code_of_lookup hrow, fieldsOf_n, byte_toNat_of_le hop]
  refine ⟨hop, harity ▸ Mnemonic.arity_le_two _, hops, hrest, ?_⟩
  rw [encode, List.length_cons, Instr.length_operands, harity, Nat.add_comm]

/-- Settles O3, by running the decoder on the words. -/
theorem specWordsDecode : Obligations.SpecWordsDecode := by
  unfold Obligations.SpecWordsDecode
  decide

end Sys2Proof
end

section
/-! SUPPORT. The statements of 30_encoding.md about the cycle: an opcode cell above 255, and an opcode byte with operand count 3,
from how the first half of the cycle ends on them. -/

namespace Sys2Proof.Machine

/-! ### The operands of the instruction at PC (R84) -/

/-- The cell at PC is the opcode cell. -/
theorem State.read_pc (s : State) : s.mem.read s.pc = s.opcode := rfl

/-- The count the decoder latches is the one in the opcode cell. -/
theorem State.n_opcode (s : State) : (fieldsOf (BitVec.ofNat 8 s.opcode)).n.toNat = s.operandCount := by
  rw [fieldsOf_n, BitVec.toNat_ofNat, State.operandCount]

/-- Operands are out of reach exactly when they pass the top and the fetch does not wrap. -/
theorem State.not_operandsReachable {s : State} :
    ¬ s.operandsReachable ↔ 255 < s.pc + s.operandCount ∧ s.config.operandFetchAtTop = .fault := by
  rw [State.operandsReachable, not_or, not_le]
  cases s.config.operandFetchAtTop <;> simp

/-- Operands in reach are fetched whole. -/
theorem State.fetchOperands_of_reachable {s : State} (hpc : s.pc ≤ 255) (h : s.operandsReachable) :
    s.fetchOperands 1 s.operandCount = (s.operandCells, none) := by
  have hcount : s.operandCount ≤ 3 := by rw [State.operandCount]; omega
  have haddr : ∀ j < s.operandCount, operandAddr s.config s.pc (1 + j)
      = if s.pc + 1 + j ≤ 255 then s.pc + 1 + j else s.pc + 1 + j - 256 := by
    intro j hj
    rw [operandAddr, ← Nat.add_assoc]
    split
    · rfl
    · obtain h | h := h
      · omega
      · rw [h]
  rw [State.fetchOperands_ok s 1 s.operandCount fun j hj => by rw [haddr j hj]; split <;> omega]
  exact congrArg (·, none) (List.map_congr_left fun j hj => by rw [haddr j (List.mem_range.1 hj)])

/-- Under `fault` an operand fetch that passes the top latches the cells up to address 255 and faults at 256. -/
theorem State.fetchOperands_past_top {s : State} (hf : s.config.operandFetchAtTop = .fault) {k count : Nat}
    (hk : s.pc + k ≤ 256) (hc : 256 < s.pc + k + count) :
    s.fetchOperands k count =
      ((List.range (256 - (s.pc + k))).map (fun j => s.mem.read (s.pc + k + j)), some (.badAddress 256)) := by
  induction count generalizing k with
  | zero => omega
  | succ count ih =>
    rw [State.fetchOperands, operandAddr_fault hf]
    rcases Nat.lt_or_ge (s.pc + k) 256 with h | h
    · rw [memRead_of_le (by omega)]
      dsimp only
      rw [ih (by omega) (by omega), show 256 - (s.pc + k) = 256 - (s.pc + (k + 1)) + 1 by omega, List.range_succ_eq_map,
        List.map_cons, List.map_map]
      simp [Function.comp_def, Nat.add_comm, Nat.add_left_comm]
    · rw [memRead_of_gt (by omega), show s.pc + k = 256 by omega]
      rfl

/-! ### How the first half of a cycle ends (R176) -/

section
variable {s : State} {ops : List Nat} (hpc : s.pc ≤ 255)
include hpc

/-- An opcode cell above 255 ends it before the decode (R82). -/
theorem State.fetch_of_opcode_gt (hop : 255 < s.opcode) :
    s.fetch = .trap (.unknownOpcode s.opcode) (s.latchOpcode s.opcode) := by
  rw [State.fetch, memRead_of_le hpc]
  exact if_pos hop

/-- A fault of the operand fetch ends it before the dispatch. -/
theorem State.fetch_of_operand_fault (hop : s.opcode ≤ 255) {f : Fault} (h : s.fetchOperands 1 s.operandCount = (ops, some f)) :
    s.fetch = .trap f ((s.latchOpcode s.opcode).latchDecode (BitVec.ofNat 8 s.opcode) ops) := by
  simp [State.fetch, memRead_of_le hpc, s.read_pc, not_lt.2 hop, s.n_opcode, h]

/-- A byte that is no row ends it at the dispatch, with its operands latched. -/
theorem State.fetch_of_no_row (hop : s.opcode ≤ 255) (h : s.fetchOperands 1 s.operandCount = (ops, none))
    (hrow : s.config.opcodeMap.lookup (BitVec.ofNat 8 s.opcode) = none) :
    s.fetch = .trap (.unknownOpcode s.opcode) ((s.latchOpcode s.opcode).latchDecode (BitVec.ofNat 8 s.opcode) ops) := by
  simp [State.fetch, memRead_of_le hpc, s.read_pc, not_lt.2 hop, s.n_opcode, h, dispatch, hrow]

end

/-- A running machine whose first half of the cycle ends with a fault takes it. -/
theorem step_of_trap {s s' : State} {f : Fault} (hrun : s.status = .running) (h : s.fetch = .trap f s') :
    step s = .next (s'.faultWith f) := by
  rw [step_running hrun, h]
  rfl

/-- Settles O10: the fetch ends before the decode, so IR and the status are all that changes. -/
theorem opcodeCellAbove255FaultsAtOnce : Obligations.OpcodeCellAbove255FaultsAtOnce :=
  fun _ hrun hpc hop => step_of_trap hrun (State.fetch_of_opcode_gt hpc hop)

/-- No row of a valid map has the operand count 3 (R67, R69). -/
theorem lookup_of_count_three {m : OpcodeMap} (hm : m.Valid) {b : Byte} (h : (fieldsOf b).n.toNat = 3) : m.lookup b = none := by
  rw [OpcodeMap.lookup_eq_none]
  rintro k rfl
  have := k.arity_le_two
  rw [OpcodeMap.count_code hm] at h
  omega

/-- Settles O13: the three operands are fetched and no row is found, or the fetch passes the top first (R176). -/
theorem countThreeIsNeverRecognised : Obligations.CountThreeIsNeverRecognised := by
  intro s hrun hm hpc hop h3
  have hcount : s.operandCount = 3 := by rw [State.operandCount]; omega
  by_cases hr : s.operandsReachable
  · have hrow := lookup_of_count_three hm (s.n_opcode.trans hcount)
    refine ⟨_, step_of_trap hrun (State.fetch_of_no_row hpc hop (State.fetchOperands_of_reachable hpc hr) hrow),
      fun _ => ⟨rfl, rfl, ?_⟩, absurd hr⟩
    simp [State.operandCells, hcount]
  · obtain ⟨hpast, hfault⟩ := State.not_operandsReachable.1 hr
    have hfetch := State.fetchOperands_past_top hfault (k := 1) (count := s.operandCount) (by omega) (by omega)
    exact ⟨_, step_of_trap hrun (State.fetch_of_operand_fault hpc hop hfetch), fun h => absurd h hr, fun _ => rfl⟩

end Sys2Proof.Machine
end

section
/-! SUPPORT. The statements of 40_cycle.md: when the first half of a cycle ends with an instruction, said once, what a handler
does to the status and to PC, and the register check before everything else a handler does. -/

namespace Sys2Proof.Machine

/-! ### When a machine steps (R80, D22) -/

/-- An opcode fetch at a PC above 255 faults there. -/
theorem State.fetch_of_pc_gt {s : State} (hpc : 255 < s.pc) : s.fetch = .trap (.badAddress s.pc) s := by
  rw [State.fetch, memRead_of_gt hpc]

/-- A running machine whose first half of the cycle ends with an instruction executes it. -/
theorem step_of_instr {s s' : State} {i : Instr} (hrun : s.status = .running) (h : s.fetch = .instr i s') :
    step s = exec i s' := by
  rw [step_running hrun, h]

/-- A running machine under a valid map steps, at any PC. -/
theorem step_total {s : State} (hrun : s.status = .running) (hm : s.config.opcodeMap.Valid) : ∃ t, step s = .next t := by
  rcases le_or_gt s.pc 255 with hpc | hpc
  · obtain ⟨t, ht, -⟩ := step_latches_opcode hrun hm hpc
    exact ⟨t, ht⟩
  · exact ⟨_, step_of_trap hrun (State.fetch_of_pc_gt hpc)⟩

/-- No step leads from an ended machine, so a run from it has no steps. -/
theorem Run.eq_of_ended {s t : State} (hend : s.status.ended = true) (h : Run s t) : t = s := by
  cases h with
  | refl => rfl
  | cons hstep _ =>
    rw [(step_cases hstep).1] at hend
    cases hend

/-- Settles O8: only a running machine steps, a running one under a valid map does, and `invoke` reads the status alone. -/
theorem onlyARunningMachineSteps : Obligations.OnlyARunningMachineSteps := by
  refine ⟨fun s hm => ⟨fun ⟨t, h⟩ => (step_cases h).1, fun hrun => step_total hrun hm⟩,
    fun s t hend h => h.eq_of_ended hend, fun s hidle => ?_⟩
  rw [invoke, hidle]

/-- Settles O9, by the status `step` looks at first. -/
theorem stoppedMachinesAnswerTheirStop : Obligations.StoppedMachinesAnswerTheirStop := by
  refine fun s => ⟨fun h => ?_, fun h => ?_, fun f h => ?_⟩ <;> rw [step, h]

/-! ### The parameters (R94) -/

/-- A step keeps the parameters: the latches, an instruction's effect and a fault do. -/
theorem step_config {s t : State} (h : step s = .next t) : t.config = s.config := by
  obtain ⟨-, ⟨f, s', -, ⟨op, l, rfl, -⟩, rfl⟩ | ⟨i, s', -, ⟨op, l, rfl, -⟩, he⟩⟩ := step_cases h
  · rfl
  · rcases exec_cases he with he | ⟨f, -, rfl⟩
    · exact he.config_eq
    · rfl

/-- Settles O20: every step keeps the parameters, so a run does. -/
theorem dispatchTableIsFixedForTheRun : Obligations.DispatchTableIsFixedForTheRun := fun s _ hrun =>
  hrun.keeps (P := fun u => u.config = s.config) (fun _ _ hu h => (step_config h).trans hu) rfl

/-! ### When a cycle has an instruction (R84 to R86) -/

/-- There are as many operand cells as the opcode counts. -/
theorem State.length_operandCells (s : State) : s.operandCells.length = s.operandCount := by
  rw [State.operandCells, List.length_map, List.length_range]

/-- Operands out of reach end the first half of a cycle at address 256, the cells up to 255 latched. -/
theorem State.fetch_of_not_reachable {s : State} (hpc : s.pc ≤ 255) (hop : s.opcode ≤ 255) (h : ¬ s.operandsReachable) :
    s.fetch = .trap (.badAddress 256) ((s.latchOpcode s.opcode).latchDecode (BitVec.ofNat 8 s.opcode)
      ((List.range (255 - s.pc)).map (fun k => s.mem.read (s.pc + 1 + k)))) := by
  obtain ⟨hpast, hfault⟩ := State.not_operandsReachable.1 h
  rw [← Nat.add_sub_add_right 255 1 s.pc]
  exact State.fetch_of_operand_fault hpc hop (State.fetchOperands_past_top hfault (by omega) (by omega))

/-- The first half of a cycle ends with an instruction exactly when the opcode is a byte, its operands are in reach, and
dispatch answers the instruction on them; IR and the latches then hold both. -/
theorem State.fetch_eq_instr {s s' : State} {i : Instr} (hpc : s.pc ≤ 255) :
    s.fetch = .instr i s' ↔ s.opcode ≤ 255 ∧ s.operandsReachable
      ∧ dispatch s.config.opcodeMap (BitVec.ofNat 8 s.opcode) s.operandCells = .ok i
      ∧ (s.latchOpcode s.opcode).latchDecode (BitVec.ofNat 8 s.opcode) s.operandCells = s' := by
  rcases lt_or_ge 255 s.opcode with hop | hop
  · simp [State.fetch_of_opcode_gt hpc hop, not_le.2 hop]
  · by_cases hr : s.operandsReachable
    · simp only [State.fetch, memRead_of_le hpc, s.read_pc, not_lt.2 hop, s.n_opcode,
        State.fetchOperands_of_reachable hpc hr, hop, hr, true_and, if_false]
      cases dispatch s.config.opcodeMap (BitVec.ofNat 8 s.opcode) s.operandCells with
      | ok j => simp
      | error e => cases e <;> simp
    · simp [State.fetch_of_not_reachable hpc hop hr, hr]

/-- Settles O7: cells with no rest decode by the dispatch the cycle makes. -/
theorem stepRunsTheDecodedInstruction : Obligations.StepRunsTheDecodedInstruction := by
  intro s i hrun hpc hr hdec
  obtain ⟨hop, -, hi, hrest⟩ := decode_cons_eq_ok.1 hdec
  rw [List.take_of_length_le (List.drop_eq_nil_iff.1 hrest.symm)] at hi
  rw [(dispatch_eq_ok.1 hi).2]
  exact step_of_instr hrun ((State.fetch_eq_instr hpc).2 ⟨hop, hr, hi, rfl⟩)

/-- Settles O11: operands in reach are fetched whole, and others end the cycle at the first address past the top. -/
theorem operandFetchPastTheTop : Obligations.OperandFetchPastTheTop := by
  refine ⟨fun _ => State.fetchOperands_of_reachable, fun s hrun hpc hop hfault hpast => ?_⟩
  have hr : ¬ s.operandsReachable := State.not_operandsReachable.2 ⟨hpast, hfault⟩
  exact ⟨_, step_of_trap hrun (State.fetch_of_not_reachable hpc hop hr), rfl, rfl⟩

/-- A byte is given by its value. -/
theorem byte_eq_ofNat_iff {b : Byte} {v : Nat} (hv : v ≤ 255) : b = BitVec.ofNat 8 v ↔ b.toNat = v := by
  rw [← BitVec.toNat_inj, byte_toNat_of_le hv]

/-- Under a valid map a mnemonic's own byte counts its operands. -/
theorem State.operandCount_of_code {s : State} (hm : s.config.opcodeMap.Valid) {k : Mnemonic}
    (h : s.config.opcodeMap.code k = BitVec.ofNat 8 s.opcode) : s.operandCount = k.arity := by
  rw [← s.n_opcode, ← h, OpcodeMap.count_code hm]

/-- Settles O12: the lookup compares whole bytes, and a row's count fits its mnemonic. -/
theorem dispatchKeysOnTheFullByte : Obligations.DispatchKeysOnTheFullByte := by
  intro s hrun hm hpc hop hr
  refine ⟨fun hno => ?_, fun k hk => ?_⟩
  · have hrow : s.config.opcodeMap.lookup (BitVec.ofNat 8 s.opcode) = none :=
      OpcodeMap.lookup_eq_none.2 fun k hk => hno k ((byte_eq_ofNat_iff hop).1 hk)
    have hstep := step_of_trap hrun (State.fetch_of_no_row hpc hop (State.fetchOperands_of_reachable hpc hr) hrow)
    exact ⟨_, _, hstep⟩
  · have hcode := (byte_eq_ofNat_iff hop).2 hk
    obtain ⟨i, hi⟩ := Instr.assemble_isSome (s.length_operandCells.trans (State.operandCount_of_code hm hcode))
    obtain ⟨rfl, hops⟩ := Instr.assemble_some hi
    have hdisp := dispatch_eq_ok.2 ⟨hcode ▸ OpcodeMap.lookup_code hm i.mnemonic, hops⟩
    have hstep := step_of_instr hrun ((State.fetch_eq_instr hpc).2 ⟨hop, hr, hdisp, rfl⟩)
    exact ⟨i, _, rfl, hops, by rfl, hstep⟩

/-! ### The status and PC after a handler (R87, R89, R91) -/

/-- HLT's effect ends the run; every other keeps the status. -/
theorem Effect.status_eq {i : Instr} {s t : State} (h : Effect i s t) : t.status = if i = .hlt then .halted else s.status := by
  cases i <;> simp only [Effect] at h
  case hlt | nop => subst h; rfl
  case ret => obtain ⟨-, rfl⟩ := h; rfl
  case pop => obtain ⟨a, -, -, rfl⟩ := h; rfl
  case ld => obtain ⟨a, b, -, -, -, rfl⟩ := h; rfl
  case add | mul | cmp | and => obtain ⟨a, b, -, -, rfl⟩ := h; rfl
  case jeq | jne | jgt | jlt | jle | jge => obtain ⟨a, -, rfl⟩ := h; split <;> rfl
  case ldi | prn | push | call | jmp | inc | dec => obtain ⟨a, -, rfl⟩ := h; rfl

/-- An effect that neither sets PC itself nor ends the run moves PC past the instruction, clamped. -/
theorem Effect.pc_eq {i : Instr} {s t : State} (h : Effect i s t) (hpcm : i.mnemonic.setsPc = false) (hi : i ≠ .hlt) :
    t.pc = clamp ((s.pc + 1 + i.mnemonic.arity : Nat) : Int) := by
  cases i <;> simp only [Effect] at h
  case hlt => exact absurd rfl hi
  case call | ret | jmp | jeq | jne | jgt | jlt | jle | jge => cases hpcm
  case nop => subst h; rfl
  case pop => obtain ⟨a, -, -, rfl⟩ := h; rfl
  case ld => obtain ⟨a, b, -, -, -, rfl⟩ := h; rfl
  case add | mul | cmp | and => obtain ⟨a, b, -, -, rfl⟩ := h; rfl
  case ldi | prn | push | inc | dec => obtain ⟨a, -, rfl⟩ := h; rfl

/-- A step that stays running has the effect of the instruction fetched, which is not HLT. -/
theorem step_effect_of_running {s t : State} (h : step s = .next t) (ht : t.status = .running) :
    ∃ i s', s.fetch = .instr i s' ∧ Effect i s' t ∧ i ≠ .hlt := by
  obtain ⟨-, ⟨f, s', -, -, rfl⟩ | ⟨i, s', hi, -, he⟩⟩ := step_cases h
  · cases ht
  · rcases exec_cases he with he | ⟨f, -, rfl⟩
    · refine ⟨i, s', hi, he, ?_⟩
      rintro rfl
      cases he.status_eq.symm.trans ht
    · cases ht

/-- Under a valid map bit 4 of a mnemonic's own byte says whether its handler sets PC. -/
theorem State.setsPc_of_code {s : State} (hm : s.config.opcodeMap.Valid) (hop : s.opcode ≤ 255) {k : Mnemonic}
    (h : s.config.opcodeMap.code k = BitVec.ofNat 8 s.opcode) : k.setsPc = decide (s.opcode / 16 % 2 = 1) := by
  obtain ⟨-, -, hpcm, -⟩ := fieldsOfTheOpcodeByte (BitVec.ofNat 8 s.opcode)
  rw [← OpcodeMap.pcm_code hm, h, hpcm, byte_toNat_of_le hop]

/-- Settles O14: the instruction fetched has the opcode's count and PC-mutation bit, and its operands were in reach. -/
theorem sequentialAdvanceIsClamped : Obligations.SequentialAdvanceIsClamped := by
  intro s t _ hm hpc hstep ht hbit
  obtain ⟨i, s', hfetch, he, hi⟩ := step_effect_of_running hstep ht
  obtain ⟨hop, hr, hdisp, rfl⟩ := (State.fetch_eq_instr hpc).1 hfetch
  have hcode := OpcodeMap.code_of_lookup (dispatch_eq_ok.1 hdisp).1
  have hpcm : i.mnemonic.setsPc = false := by simp [State.setsPc_of_code hm hop hcode, hbit]
  refine ⟨State.operandCount_of_code hm hcode ▸ he.pc_eq hpcm hi, fun hfault => ?_⟩
  obtain hr | hwrap := hr
  · omega
  · cases hfault.symm.trans hwrap

/-! ### The register check (R88, R172) -/

section
variable {rA rB r : Nat} {s : State}

/-- A one-register handler faults on its operand when that is no index. -/
theorem withReg_of_find {k : Fin 8 → Host.Outcome State Fault Refusal}
    (h : [rA].find? (fun x => decide (8 ≤ x)) = some r) : withReg rA s k = raise (.badRegister r) s := by
  obtain ⟨hA, rfl⟩ : 8 ≤ rA ∧ rA = r := by simpa using h
  exact withReg_of_ge hA

/-- A two-register handler faults on the first of its operands that is no index. -/
theorem withRegs_of_find {k : Fin 8 → Fin 8 → Host.Outcome State Fault Refusal}
    (h : [rA, rB].find? (fun x => decide (8 ≤ x)) = some r) : withRegs rA rB s k = raise (.badRegister r) s := by
  rcases lt_or_ge rA 8 with hA | hA
  · rw [List.find?_cons_of_neg (by simpa using hA)] at h
    rw [withRegs, withReg_of_lt hA]
    exact withReg_of_find h
  · rw [List.find?_cons_of_pos (by simpa using hA)] at h
    cases h
    exact withRegs_of_ge_left hA

/-- Every handler checks its register operands before it does anything else. -/
theorem exec_of_find {i : Instr} (h : i.regOperands.find? (fun x => decide (8 ≤ x)) = some r) :
    exec i s = raise (.badRegister r) s := by
  cases i <;> simp only [exec_hlt, exec_ldi, exec_ld, exec_prn, exec_nop, exec_push, exec_pop, exec_call, exec_ret, exec_jmp,
    exec_jeq, exec_jne, exec_jgt, exec_jlt, exec_jle, exec_jge, exec_add, exec_mul, exec_cmp, exec_and, exec_inc, exec_dec]
  case hlt | nop | ret => cases h
  case ld | add | mul | cmp | and => exact withRegs_of_find h
  case ldi | prn | push | pop | call | jmp | jeq | jne | jgt | jlt | jle | jge | inc | dec => exact withReg_of_find h

end

/-- Settles O27: a register fault has an operand that is no index, and then the fault is that of the first such operand. -/
theorem badRegisterIsCheckedFirst : Obligations.BadRegisterIsCheckedFirst := by
  refine ⟨fun i s r h => exec_of_find h, fun i s t r hrun he ht => ?_⟩
  rcases exec_cases he with heff | ⟨f, ⟨x, hx, hx8, rfl⟩ | ⟨a, -, rfl, -⟩, rfl⟩
  · rw [heff.status_eq, hrun] at ht
    split at ht <;> cases ht
  · have hsome : (i.regOperands.find? (fun x => decide (8 ≤ x))).isSome := List.find?_isSome.2 ⟨x, hx, by simpa using hx8⟩
    obtain ⟨r', hr'⟩ := Option.isSome_iff_exists.1 hsome
    cases raise_next.1 ((exec_of_find hr').symm.trans he) ▸ ht
    exact hr'
  · cases ht

end Sys2Proof.Machine
end

section
/-! SUPPORT. The statements of 41_basic.md: what HLT, LDI, LD, PRN and NOP answer on register indices, what the frame of a
register-only instruction asks of a write and of the PC advance, and the fault on a register operand that is no index. -/

namespace Sys2Proof.Machine

/-! ### What a register-only instruction leaves unchanged -/

/-- A state is within every register frame of itself. -/
theorem RegisterFrame.refl (w : List (Fin 8)) (s : State) : RegisterFrame w s s :=
  ⟨fun _ _ => rfl, fun _ => rfl, rfl, rfl, rfl, rfl, rfl, rfl⟩

section
variable {w : List (Fin 8)} {s t : State}

/-- A write of a register of the frame stays within it. -/
theorem RegisterFrame.setReg (h : RegisterFrame w s t) {a : Fin 8} (ha : a ∈ w) (v : Nat) :
    RegisterFrame w s (t.setReg a v) := by
  obtain ⟨hregs, hrest⟩ := h
  refine ⟨fun j hj => ?_, hrest⟩
  have hne : j ≠ a := by
    rintro rfl
    exact hj ha
  rw [State.reg_setReg, if_neg hne, hregs j hj]

/-- PC is outside every register frame, so the end of a cycle stays within it. -/
theorem RegisterFrame.advance (h : RegisterFrame w s t) (n : Nat) : RegisterFrame w s (t.advance n) := h

end

/-- The frame of an instruction that writes one register and moves PC past itself. -/
theorem registerFrame_setReg_advance (s : State) (a : Fin 8) (v n : Nat) :
    RegisterFrame [a] s ((s.setReg a v).advance n) :=
  ((RegisterFrame.refl [a] s).setReg (List.mem_singleton_self a) v).advance n

/-- A register reads what was written to it, after the end of the cycle too. -/
theorem State.reg_setReg_advance (s : State) (a : Fin 8) (v n : Nat) : ((s.setReg a v).advance n).reg a = v := by
  rw [State.advance_reg, State.reg_setReg, if_pos rfl]

/-! ### Faults of the register operands (R88, D7) -/

section
variable {i : Instr} {r : Nat} {rs : List Nat} {s : State}

/-- An instruction whose first register operand is no index faults on it, whatever the second is. -/
theorem faultsWith_of_first_ge (hi : i.regOperands = r :: rs) (hr : 8 ≤ r) : FaultsWith i s (.badRegister r) :=
  exec_of_find (hi ▸ List.find?_cons_of_pos (decide_eq_true hr))

/-- An instruction whose first register operand is an index and whose second is none faults on the second. -/
theorem faultsWith_of_second_ge {a : Fin 8} (hi : i.regOperands = a.val :: r :: rs) (hr : 8 ≤ r) :
    FaultsWith i s (.badRegister r) := by
  have hfind : i.regOperands.find? (fun x => decide (8 ≤ x)) = some r := by
    rw [hi, List.find?_cons_of_neg (by simp)]
    exact List.find?_cons_of_pos (decide_eq_true hr)
  exact exec_of_find hfind

end

/-! ### The handlers on register indices -/

section
variable (s : State) (a b : Fin 8)

theorem exec_ldi_fin (v : Nat) : exec (.ldi a v) s = .next ((s.setReg a (s.narrow v)).advance 2) := by
  rw [exec_ldi, withReg_fin]

theorem exec_prn_fin : exec (.prn a) s = .next ((s.emit (s.reg a)).advance 1) := by
  rw [exec_prn, withReg_fin]

variable {s b}

theorem exec_ld_fin_of_le (hb : s.reg b ≤ 255) :
    exec (.ld a b) s = .next ((s.setReg a (s.mem.read (s.reg b))).advance 2) := by
  rw [exec_ld, withRegs_fin, withCell_of_le hb]

/-- A data address above 255 is LD's fault when both registers are indices (R43, D8). -/
theorem exec_ld_fin_of_gt (hb : 255 < s.reg b) : exec (.ld a b) s = raise (.badAddress (s.reg b)) s := by
  rw [exec_ld, withRegs_fin, withCell_of_gt hb]

end

/-! ### The statements -/

/-- Settles O29: HLT's one write is the status, and only a running machine steps. -/
theorem hltHaltsInPlace : Obligations.HltHaltsInPlace := by
  refine ⟨rfl, fun s => ⟨_, exec_hlt s, rfl, rfl, fun _ _ => rfl, fun _ => rfl, rfl, rfl, ⟨rfl, rfl, rfl⟩, fun u h => ?_⟩⟩
  obtain ⟨hrun, -⟩ := step_cases h
  cases hrun

/-- Settles O30: NOP is the end of its cycle and nothing more. -/
theorem nopOnlyAdvances : Obligations.NopOnlyAdvances :=
  ⟨rfl, fun s => ⟨_, exec_nop s, rfl, (RegisterFrame.refl [] s).advance 0⟩⟩

/-- Settles O31: LDI writes the narrowed immediate, and its one register operand is checked. -/
theorem ldiLoadsTheImmediate : Obligations.LdiLoadsTheImmediate := by
  refine ⟨fun _ _ => rfl, fun s a v => ?_, fun s r v hr => faultsWith_of_first_ge rfl hr⟩
  refine ⟨_, exec_ldi_fin s a v, ?_, rfl, registerFrame_setReg_advance s a _ 2⟩
  rw [State.reg_setReg_advance, State.narrow_eq_stored]

/-- Settles O32: the registers are checked in operand order, then the address, and then the cell is copied. -/
theorem ldLoadsTheCell : Obligations.LdLoadsTheCell := by
  refine ⟨fun _ _ => rfl, fun s a b hb => ?_, fun s a b hb => exec_ld_fin_of_gt a hb,
    fun s rA rB hA => faultsWith_of_first_ge rfl hA, fun s a rB hB => faultsWith_of_second_ge rfl hB⟩
  exact ⟨_, exec_ld_fin_of_le a hb, s.reg_setReg_advance a _ 2, rfl, registerFrame_setReg_advance s a _ 2⟩

/-- Settles O33: PRN's one write but PC is the output, and its register operand is checked. -/
theorem prnEmitsTheRegister : Obligations.PrnEmitsTheRegister := by
  refine ⟨fun _ => rfl, fun s a => ?_, fun s r hr => faultsWith_of_first_ge rfl hr⟩
  exact ⟨_, exec_prn_fin s a, rfl, rfl, fun _ _ => rfl, fun _ => rfl, rfl, rfl, rfl, rfl, rfl⟩

/-- Settles O34: LDI stores a byte as it is in either mode, and PRN emits the register's whole value. -/
theorem ldiThenPrnEmitsTheByte : Obligations.LdiThenPrnEmitsTheByte := by
  intro s a v hv
  refine ⟨_, _, exec_ldi_fin s a v, exec_prn_fin _ a, ?_⟩
  rw [State.advance_output, State.emit_output, State.reg_setReg_advance, State.narrow_eq, narrow_of_le _ hv,
    State.advance_output, State.setReg_output]

end Sys2Proof.Machine
end

section
/-! SUPPORT. The statements of 42_alu.md: the three flag values of a comparison, INC's and DEC's clamp by the range of the old
value, and what ADD, MUL, AND, CMP, INC and DEC answer on register indices. -/

namespace Sys2Proof.Machine

/-! ### What a comparison writes (R124, R125) -/

section
variable {a b : Nat}

theorem Flags.compare_of_eq (h : a = b) : Flags.compare a b = ⟨true, false, false⟩ := if_pos h

theorem Flags.compare_of_lt (h : a < b) : Flags.compare a b = ⟨false, false, true⟩ := by
  rw [Flags.compare, if_neg h.ne, if_pos h]

theorem Flags.compare_of_gt (h : b < a) : Flags.compare a b = ⟨false, true, false⟩ := by
  rw [Flags.compare, if_neg h.ne', if_neg h.not_gt]

end

/-- A comparison writes one of three values. -/
theorem Flags.compare_cases (a b : Nat) :
    Flags.compare a b = ⟨true, false, false⟩ ∨ Flags.compare a b = ⟨false, true, false⟩
    ∨ Flags.compare a b = ⟨false, false, true⟩ := by
  rcases lt_trichotomy a b with h | h | h
  · exact .inr (.inr (compare_of_lt h))
  · exact .inl (compare_of_eq h)
  · exact .inr (.inl (compare_of_gt h))

/-- Settles O22, by the frame of the instruction fetched. -/
theorem flagsChangeOnlyByCmp : Obligations.FlagsChangeOnlyByCmp := by
  intro s t h
  rcases step_frame h with ⟨hf, -, -⟩ | ⟨i, s', hi, hF⟩
  · exact .inl hf
  · obtain hf | ⟨a, b, rfl, hf⟩ := hF.flags
    · exact .inl hf
    · exact .inr ⟨a, b, s', hi, hf ▸ Flags.compare_cases _ _⟩

/-! ### The clamp of INC and DEC (R11, R126, R127) -/

theorem clamp_add_one (v : Nat) : clamp ((v : Int) + 1) = if 255 ≤ v then 0 else v + 1 := by
  split
  · exact clamp_of_gt (by omega)
  · exact clamp_natCast_of_le (x := v + 1) (by omega)

theorem clamp_sub_one (v : Nat) : clamp ((v : Int) - 1) = if v = 0 then 255 else if v ≤ 256 then v - 1 else 0 := by
  split
  · exact clamp_of_neg (by omega)
  · split
    · rw [clamp_of_mem (by omega) (by omega)]
      omega
    · exact clamp_of_gt (by omega)

/-- Counting up and then down: 255 and every larger value pass through 0, whose predecessor is 255. -/
theorem clamp_sub_one_clamp_add_one (v : Nat) : clamp ((clamp ((v : Int) + 1) : Int) - 1) = min v 255 := by
  rw [clamp_sub_one, clamp_add_one]
  rcases le_or_gt 255 v with h | h
  · rw [if_pos h, if_pos rfl, min_eq_right h]
  · rw [if_neg h.not_ge, if_neg v.succ_ne_zero, if_pos (by omega), min_eq_left h.le]
    rfl

/-! ### The handlers on register indices -/

section
variable (s : State) (a b : Fin 8)

theorem exec_cmp_fin : exec (.cmp a b) s =
    .next (State.advance { s with flags := Flags.compare (s.reg a) (s.reg b) } 2) := by
  rw [exec_cmp, withRegs_fin]

theorem exec_inc_fin : exec (.inc a) s = .next ((s.setReg a (clamp ((s.reg a : Int) + 1))).advance 1) := by
  rw [exec_inc, withReg_fin]

theorem exec_dec_fin : exec (.dec a) s = .next ((s.setReg a (clamp ((s.reg a : Int) - 1))).advance 1) := by
  rw [exec_dec, withReg_fin]

end

/-- An instruction that checks its two registers and then writes the ALU's result is a two-register arithmetic one. -/
theorem binaryResult_of_exec {mk : Nat → Nat → Instr} {op : Nat → Nat → Nat}
    (hops : ∀ rA rB, (mk rA rB).regOperands = [rA, rB])
    (hexec : ∀ s rA rB, exec (mk rA rB) s = withRegs rA rB s (fun a b => .next ((s.aluBinary op a b).advance 2))) :
    BinaryResult mk op := by
  refine ⟨fun s a b => ?_, fun s rA rB hA => faultsWith_of_first_ge (hops rA rB) hA,
    fun s a rB hB => faultsWith_of_second_ge (hops a rB) hB⟩
  rw [hexec, withRegs_fin]
  refine ⟨_, rfl, ?_, rfl, registerFrame_setReg_advance s a _ 2⟩
  rw [State.aluBinary, State.reg_setReg_advance, State.narrow_eq_stored]

/-! ### The statements -/

/-- Settles O35: ADD, MUL and AND are the one two-register form with their own operation. -/
theorem addMulAndResults : Obligations.AddMulAndResults :=
  ⟨fun _ _ => ⟨rfl, rfl, rfl⟩, binaryResult_of_exec (fun _ _ => rfl) exec_add,
    binaryResult_of_exec (fun _ _ => rfl) exec_mul, binaryResult_of_exec (fun _ _ => rfl) exec_and⟩

/-- Settles O36: CMP's one write but PC is the comparison, and its register operands are checked in order. -/
theorem cmpSetsExactlyOneFlag : Obligations.CmpSetsExactlyOneFlag := by
  refine ⟨fun _ _ => rfl, fun s a b => ?_, fun s rA rB hA => faultsWith_of_first_ge rfl hA,
    fun s a rB hB => faultsWith_of_second_ge rfl hB⟩
  exact ⟨_, exec_cmp_fin s a b, Flags.compare_of_eq, Flags.compare_of_lt, Flags.compare_of_gt, rfl,
    fun _ _ => rfl, fun _ => rfl, rfl, rfl, rfl, rfl, rfl⟩

/-- Settles O37: INC and DEC write the clamped value, and their register operand is checked. -/
theorem incDecAreClamped : Obligations.IncDecAreClamped := by
  refine ⟨fun _ => ⟨rfl, rfl⟩, fun s a => ?_, fun s a => ?_,
    fun s r hr => ⟨faultsWith_of_first_ge rfl hr, faultsWith_of_first_ge rfl hr⟩⟩
  · refine ⟨_, exec_inc_fin s a, ?_, rfl, registerFrame_setReg_advance s a _ 1⟩
    rw [State.reg_setReg_advance, clamp_add_one]
  · refine ⟨_, exec_dec_fin s a, ?_, rfl, registerFrame_setReg_advance s a _ 1⟩
    rw [State.reg_setReg_advance, clamp_sub_one]

/-- Settles O38: the register ends at its old value or 255, whichever is less. -/
theorem incThenDecRestoresBytes : Obligations.IncThenDecRestoresBytes := by
  intro s a
  refine ⟨_, _, exec_inc_fin s a, exec_dec_fin _ a, ?_⟩
  rw [State.reg_setReg_advance, State.reg_setReg_advance, clamp_sub_one_clamp_add_one]
  exact ⟨min_eq_left, fun h => min_eq_right h.le⟩

end Sys2Proof.Machine
end

section
/-! SUPPORT. The statements of 43_stack_control.md: what a push stores and leaves unchanged, what the four stack instructions
and the jumps answer on register indices, what a conditional jump tests after CMP, and the fixed point of a jump to itself. -/

namespace Sys2Proof.Machine

/-! ### Register frames of a pop and of a jump -/

section
variable {w : List (Fin 8)} {s t : State}

/-- An increment of SP stays within a frame that names R7. -/
theorem RegisterFrame.incSp (h : RegisterFrame w s t) (h7 : 7 ∈ w) : RegisterFrame w s t.incSp := h.setReg h7 _

/-- PC is outside every register frame, so a jump stays within it. -/
theorem RegisterFrame.jumpTo (h : RegisterFrame w s t) (p : Nat) : RegisterFrame w s (t.jumpTo p) := h

end

/-! ### The clamp of SP and of a popped PC (R11, R155) -/

/-- Counting down and then up returns to every address: 0 passes through 255, whose successor is 0. -/
theorem clamp_add_one_clamp_sub_one {v : Nat} (h : v ≤ 255) : clamp ((clamp ((v : Int) - 1) : Int) + 1) = v := by
  have hdown := clamp_cases ((v : Int) - 1)
  have hup := clamp_cases ((clamp ((v : Int) - 1) : Int) + 1)
  omega

/-- A byte is stored as it is, in either mode. -/
theorem stored_of_le (mode : ArithMode) {v : Nat} (h : v ≤ 255) : stored mode v = v := by
  cases mode with
  | legacy => rfl
  | strict8 => exact Nat.mod_eq_of_lt (Nat.lt_succ_of_le h)

/-- Up to 256, the clamp of a stored value is the value mod 256 in either mode: 256 is stored whole and clamped to 0, or stored
as 0. -/
theorem clamp_stored (mode : ArithMode) {v : Nat} (h : v ≤ 256) : clamp (stored mode v : Int) = v % 256 := by
  rcases Nat.lt_or_eq_of_le h with hlt | rfl
  · rw [stored_of_le mode (by omega), clamp_natCast_of_le (by omega), Nat.mod_eq_of_lt hlt]
  · cases mode <;> rfl

/-! ### A push (R141, R144) -/

/-- SP is decremented and `v` stored at the new SP: the part PUSH and CALL share (`exec_push_fin`, `exec_call_fin`). -/
def State.push (s : State) (v : Nat) : State := s.decSp.memWrite s.decSp.sp v

section
variable (s : State) (v : Nat)

theorem State.sp_push : (s.push v).sp = clamp ((s.sp : Int) - 1) := s.sp_decSp

theorem State.mem_push : (s.push v).mem = s.mem.write (clamp ((s.sp : Int) - 1)) v := by
  rw [State.push, State.memWrite_mem, State.sp_decSp, State.decSp_mem]

/-- A push writes no register but SP. -/
theorem State.keepsRegs_push : KeepsRegs [7] s (s.push v) := fun j hj => by
  rw [State.push, State.memWrite_reg, State.reg_decSp, if_neg (by simpa using hj)]

variable {s}

/-- The cell at the new SP holds the value pushed, and every other address reads as before. -/
theorem State.read_push (hm : s.mem.WF) :
    (s.push v).mem.read (clamp ((s.sp : Int) - 1)) = v ∧ KeepsMemBut (clamp ((s.sp : Int) - 1)) s (s.push v) := by
  rw [KeepsMemBut, State.mem_push]
  exact ⟨Memory.read_write_self hm _ _, fun _ hb => Memory.read_write_ne hm hb _⟩

end

/-! ### The handlers on register indices -/

section
variable (s : State) (a : Fin 8)

theorem exec_push_fin : exec (.push a) s =
    .next ((s.push (stored s.config.arithMode (if a = 7 then clamp ((s.sp : Int) - 1) else s.reg a))).advance 1) := by
  rw [exec_push, withReg_fin, State.narrow_eq_stored, State.reg_decSp, State.push]

theorem exec_call_fin : exec (.call a) s =
    .next ((s.push (stored s.config.arithMode (s.pc + 2))).jumpTo (if a = 7 then clamp ((s.sp : Int) - 1) else s.reg a)) := by
  rw [exec_call, withReg_fin, State.narrow_eq_stored, State.reg_decSp, State.push]

theorem exec_jmp_fin : exec (.jmp a) s = .next (s.jumpTo (s.reg a)) := by
  rw [exec_jmp, withReg_fin]

variable {s}

theorem exec_pop_fin_of_le (h : s.sp ≤ 255) :
    exec (.pop a) s = .next ((s.setReg a (s.mem.read s.sp)).incSp.advance 1) := by
  rw [exec_pop, withReg_fin, withCell_of_le h]

/-- An SP above 255 is POP's fault when its register is an index (R43, D8). -/
theorem exec_pop_fin_of_gt (h : 255 < s.sp) : exec (.pop a) s = raise (.badAddress s.sp) s := by
  rw [exec_pop, withReg_fin, withCell_of_gt h]

theorem exec_ret_of_le (h : s.sp ≤ 255) : exec .ret s = .next (s.incSp.jumpTo (s.mem.read s.sp)) := by
  rw [exec_ret, withCell_of_le h]

/-- An SP above 255 is RET's fault (R43, D8). -/
theorem exec_ret_of_gt (h : 255 < s.sp) : exec .ret s = raise (.badAddress s.sp) s := by
  rw [exec_ret, withCell_of_gt h]

/-- What POP leaves: both its writes, then the end of the cycle, are within the frame of its register and SP. -/
theorem registerFrame_pop (v : Nat) : RegisterFrame [a, 7] s ((s.setReg a v).incSp.advance 1) :=
  (((RegisterFrame.refl [a, 7] s).setReg (by simp) v).incSp (by simp)).advance 1

variable {a}

/-- POP of a register other than SP keeps what it read there. -/
theorem State.reg_setReg_incSp_of_ne (h : a ≠ 7) (v : Nat) : (s.setReg a v).incSp.reg a = v := by
  rw [State.reg_incSp, if_neg h, State.reg_setReg, if_pos rfl]

/-- POP of a register other than SP increments the old SP. -/
theorem State.sp_setReg_incSp_of_ne (h : a ≠ 7) (v : Nat) : (s.setReg a v).incSp.sp = clamp ((s.sp : Int) + 1) := by
  rw [State.sp_incSp, State.sp_def, State.reg_setReg, if_neg h.symm, State.sp_def]

/-- POP of SP increments what it read (D11). -/
theorem State.sp_setReg_incSp_self (v : Nat) : (s.setReg 7 v).incSp.sp = clamp ((v : Int) + 1) := by
  rw [State.sp_incSp, State.sp_def, State.reg_setReg, if_pos rfl]

end

/-! ### Conditional jumps (R147) -/

section
variable {jump : Nat → Instr} {taken : Flags → Bool}

/-- An instruction that checks its register and then jumps to it or past itself, by a test of the flags, is a conditional
jump on that test. -/
theorem jumpsWhen_of_exec (hops : ∀ r, (jump r).regOperands = [r])
    (hexec : ∀ s r, exec (jump r) s =
      withReg r s (fun a => .next (if taken s.flags then s.jumpTo (s.reg a) else s.jumpTo (s.pc + 2)))) :
    JumpsWhen jump taken := by
  refine ⟨fun s a => ?_, fun s r hr => faultsWith_of_first_ge (hops r) hr⟩
  rw [hexec, withReg_fin, ← apply_ite s.jumpTo]
  exact ⟨_, rfl, rfl, (RegisterFrame.refl [] s).jumpTo _⟩

/-- Where a conditional jump leads, when its test is known to decide `p`. -/
theorem JumpsWhen.pc_of_iff (hj : JumpsWhen jump taken) {p : Prop} [Decidable p] {s : State} (h : taken s.flags = true ↔ p)
    (c : Fin 8) : ∃ t, exec (jump c) s = .next t ∧ t.pc = clamp ((if p then s.reg c else s.pc + 2 : Nat) : Int) := by
  obtain ⟨t, ht, hpc, -⟩ := hj.1 s c
  exact ⟨t, ht, by rw [hpc, if_congr h rfl rfl]⟩

end

/-! ### What each test finds after a comparison (R124, R147) -/

/-- Each flag is the decision of its own comparison. -/
theorem Flags.compare_eq_decide (a b : Nat) : Flags.compare a b = ⟨decide (a = b), decide (b < a), decide (a < b)⟩ := by
  rcases lt_trichotomy a b with h | h | h
  · simp [compare_of_lt h, h, h.ne, h.le]
  · rw [compare_of_eq h]
    simp [h]
  · simp [compare_of_gt h, h, h.ne', h.le]

section
variable (a b : Nat)

theorem Flags.compare_e : (Flags.compare a b).e = true ↔ a = b := by
  rw [compare_eq_decide, decide_eq_true_iff]

theorem Flags.compare_g : (Flags.compare a b).g = true ↔ b < a := by
  rw [compare_eq_decide, decide_eq_true_iff]

theorem Flags.compare_l : (Flags.compare a b).l = true ↔ a < b := by
  rw [compare_eq_decide, decide_eq_true_iff]

theorem Flags.compare_not_e : (!(Flags.compare a b).e) = true ↔ a ≠ b := by
  rw [Bool.not_eq_true', ← Bool.not_eq_true, compare_e]

theorem Flags.compare_e_or_g : ((Flags.compare a b).e || (Flags.compare a b).g) = true ↔ b ≤ a := by
  rw [Bool.or_eq_true, compare_e, compare_g, eq_comm, le_iff_eq_or_lt]

theorem Flags.compare_e_or_l : ((Flags.compare a b).e || (Flags.compare a b).l) = true ↔ a ≤ b := by
  rw [Bool.or_eq_true, compare_e, compare_l, le_iff_eq_or_lt]

end

/-! ### A jump to itself (R92, R146) -/

section
variable {M : Host.Core} {s t : M.State}

/-- A step that answers a next state is the first of a run's. -/
theorem run_succ_of_step (h : M.step s = .next t) (k : Nat) : M.run (k + 1) s = M.run k t := by
  rw [Host.Core.run, h]

/-- A machine that steps to itself is there after any number of steps. -/
theorem run_of_step_self (h : M.step s = .next s) (k : Nat) : M.run k s = .next s := by
  induction k with
  | zero => rfl
  | succ k ih => rw [run_succ_of_step h, ih]

end

section
variable {s s' : State}

/-- The fetch reads neither IR nor the latches, so after it the same fetch changes nothing. -/
theorem State.fetch_idem {i : Instr} (hpc : s.pc ≤ 255) (h : s.fetch = .instr i s') : s'.fetch = .instr i s' := by
  obtain ⟨hop, hr, hi, rfl⟩ := (State.fetch_eq_instr hpc).1 h
  refine (State.fetch_eq_instr ?_).2 ⟨hop, hr, hi, rfl⟩
  exact hpc

theorem State.jumpTo_pc_self (hpc : s.pc ≤ 255) : s.jumpTo s.pc = s := by
  rw [State.jumpTo, clamp_natCast_of_le hpc]

/-- A jump to itself changes nothing but what its fetch latches. -/
theorem step_jmp_self {a : Fin 8} (hrun : s.status = .running) (hpc : s.pc ≤ 255) (h : s.fetch = .instr (.jmp a) s')
    (ha : s.reg a = s.pc) : step s = .next s' := by
  obtain ⟨op, l, rfl, -⟩ := State.fetch_instr h
  rw [step_of_instr hrun h, exec_jmp_fin]
  exact congrArg _ ((congrArg _ ha).trans (State.jumpTo_pc_self hpc))

end

/-! ### The statements -/

/-- Settles O40: PUSH is a push of what its register reads after the decrement. -/
theorem pushStoresAtTheNewTop : Obligations.PushStoresAtTheNewTop := by
  refine ⟨fun _ => rfl, fun s a => ?_, fun s r hr => faultsWith_of_first_ge rfl hr⟩
  rw [exec_push_fin]
  generalize stored s.config.arithMode _ = v
  exact ⟨_, rfl, s.sp_push v, s.keepsRegs_push v, State.read_push v, rfl, rfl, rfl, rfl, rfl, rfl, rfl⟩

/-- Settles O41: the register is checked, then SP, and then the cell is copied and SP counts up from what it holds. -/
theorem popLoadsTheTop : Obligations.PopLoadsTheTop := by
  refine ⟨fun _ => rfl, fun s a hsp => ?_, fun s a hsp => exec_pop_fin_of_gt a hsp,
    fun s r hr => faultsWith_of_first_ge rfl hr⟩
  refine ⟨_, exec_pop_fin_of_le a hsp, fun ha => ?_, ?_, rfl, registerFrame_pop a _⟩
  · exact ⟨State.reg_setReg_incSp_of_ne ha _, State.sp_setReg_incSp_of_ne ha _⟩
  · rintro rfl
    exact State.sp_setReg_incSp_self _

/-- Settles O42: CALL is a push of the address after it and a jump to what its register reads after the decrement. -/
theorem callPushesAndJumps : Obligations.CallPushesAndJumps := by
  refine ⟨fun _ => rfl, fun s a => ?_, fun s r hr => faultsWith_of_first_ge rfl hr⟩
  rw [exec_call_fin]
  generalize stored s.config.arithMode _ = v
  refine ⟨_, rfl, s.sp_push v, s.keepsRegs_push v, State.read_push v, ?_, rfl, rfl, rfl, rfl, rfl, rfl⟩
  rw [State.jumpTo_pc]
  split
  · exact clamp_natCast_of_le (clamp_le _)
  · rfl

/-- Settles O43: RET is a jump to the cell at SP and an increment of SP. -/
theorem retPopsIntoPc : Obligations.RetPopsIntoPc := by
  refine ⟨rfl, fun s hsp => ?_, fun s hsp => exec_ret_of_gt hsp⟩
  exact ⟨_, exec_ret_of_le hsp, rfl, s.sp_incSp, ((RegisterFrame.refl [7] s).incSp (by simp)).jumpTo _⟩

/-- Settles O44: POP reads the cell PUSH wrote, since the new SP is an address, and SP counts down and up again. -/
theorem pushThenPopRestores : Obligations.PushThenPopRestores := by
  intro s a b ha hb hsp hm
  have hpush := exec_push_fin s a
  rw [if_neg ha] at hpush
  generalize stored s.config.arithMode (s.reg a) = v at hpush ⊢
  obtain ⟨hread, -⟩ := State.read_push v hm
  have hsp1 := s.sp_push v
  refine ⟨_, _, hpush, exec_pop_fin_of_le b (hsp1 ▸ clamp_le _), ?_, ?_, ?_⟩
  · rw [State.advance_reg, State.reg_setReg_incSp_of_ne hb, State.advance_mem, State.advance_sp, hsp1, hread]
  · rw [State.advance_sp, State.sp_setReg_incSp_of_ne hb, State.advance_sp, hsp1, clamp_add_one_clamp_sub_one hsp]
  · rw [State.advance_sp, hsp1]
    exact hread

/-- Settles O45: RET clamps the address CALL stored, in which 256 becomes 0, and SP counts down and up again. -/
theorem callThenRetResumes : Obligations.CallThenRetResumes := by
  intro s a hsp hm
  refine ⟨_, exec_call_fin s a, fun u husp hcell => ?_⟩
  rw [State.jumpTo_sp, State.sp_push] at husp hcell
  rw [State.jumpTo_mem, (State.read_push _ hm).1] at hcell
  have hpc (h : s.pc ≤ 254) : clamp (u.mem.read u.sp : Int) = (s.pc + 2) % 256 := by
    rw [hcell, clamp_stored _ (by omega)]
  refine ⟨_, exec_ret_of_le (husp ▸ clamp_le _), ?_, fun h => ?_, fun h => ?_⟩
  · rw [State.jumpTo_sp, State.sp_incSp, husp, clamp_add_one_clamp_sub_one hsp]
  · rw [State.jumpTo_pc, hpc (by omega), Nat.mod_eq_of_lt (by omega)]
  · rw [State.jumpTo_pc, hpc h.le, h]

/-- Settles O46: JMP's one write is PC, and its register operand is checked. -/
theorem jmpGoesToTheRegister : Obligations.JmpGoesToTheRegister := by
  refine ⟨fun _ => rfl, fun s a => ?_, fun s r hr => faultsWith_of_first_ge rfl hr⟩
  exact ⟨_, exec_jmp_fin s a, rfl, (RegisterFrame.refl [] s).jumpTo _⟩

/-- Settles O47: the six are the one form of R147 with their own test. -/
theorem conditionalJumpsFollowTheFlags : Obligations.ConditionalJumpsFollowTheFlags :=
  ⟨fun _ => ⟨rfl, rfl, rfl, rfl, rfl, rfl⟩, jumpsWhen_of_exec (fun _ => rfl) exec_jeq,
    jumpsWhen_of_exec (fun _ => rfl) exec_jne, jumpsWhen_of_exec (fun _ => rfl) exec_jgt,
    jumpsWhen_of_exec (fun _ => rfl) exec_jlt, jumpsWhen_of_exec (fun _ => rfl) exec_jge,
    jumpsWhen_of_exec (fun _ => rfl) exec_jle⟩

/-- Settles O48: each jump tests the flags CMP wrote, which say how the two values compare. -/
theorem jumpsAfterCmpCompareTheValues : Obligations.JumpsAfterCmpCompareTheValues := by
  obtain ⟨-, hjeq, hjne, hjgt, hjlt, hjge, hjle⟩ := conditionalJumpsFollowTheFlags
  intro s a b c
  exact ⟨_, exec_cmp_fin s a b, hjeq.pc_of_iff (Flags.compare_e _ _) c, hjne.pc_of_iff (Flags.compare_not_e _ _) c,
    hjgt.pc_of_iff (Flags.compare_g _ _) c, hjlt.pc_of_iff (Flags.compare_l _ _) c,
    hjge.pc_of_iff (Flags.compare_e_or_g _ _) c, hjle.pc_of_iff (Flags.compare_e_or_l _ _) c⟩

/-- Settles O49: the first step latches the JMP, and from then on the machine steps to itself. -/
theorem jumpToItselfNeverEnds : Obligations.JumpToItselfNeverEnds := by
  intro s s' a hrun hpc hfetch ha k
  have hstep := step_jmp_self hrun hpc hfetch ha
  have hagain := State.fetch_idem hpc hfetch
  obtain ⟨op, l, rfl, -⟩ := State.fetch_instr hfetch
  have hfixed := step_jmp_self (s := { s with ir := op, latches := l }) hrun hpc hagain ha
  cases k with
  | zero => exact ⟨s, rfl, rfl, hrun⟩
  | succ k => exact ⟨_, (run_succ_of_step (M := Sys2Proof.core) hstep k).trans (run_of_step_self hfixed k), rfl, hrun⟩

end Sys2Proof.Machine
end

section
/-! SUPPORT. The statements of 60_exceptions.md: all the ways a step can end faulted, said once, and the one fault a cycle raises,
from how its first half ends and what its handler checks. -/

namespace Sys2Proof.Machine

/-! ### What a faulted step leaves (R178) -/

/-- A fault of the first half of a cycle at a PC in range leaves the opcode cell in IR, under any map (R81). -/
theorem State.fetch_trap_ir {s s' : State} {f : Fault} (hpc : s.pc ≤ 255) (h : s.fetch = .trap f s') : s'.ir = s.opcode := by
  rw [State.fetch, memRead_of_le hpc] at h
  dsimp only at h
  split at h
  · cases h
    rfl
  · split at h
    · cases h
      rfl
    · split at h <;> cases h
      rfl

/-- A step from a PC in range leaves the opcode cell in IR (R81), whether it faults or not. -/
theorem step_ir {s t : State} (hpc : s.pc ≤ 255) (h : step s = .next t) : t.ir = s.opcode := by
  obtain ⟨-, ⟨f, s', hf, -, rfl⟩ | ⟨i, s', hi, -, he⟩⟩ := step_cases h
  · exact (s'.faultWith_ir f).trans (State.fetch_trap_ir hpc hf)
  · obtain ⟨-, -, -, rfl⟩ := (State.fetch_eq_instr hpc).1 hi
    exact (exec_latched he).1

/-- An instruction that has its effect does not leave a running machine faulted. -/
theorem Effect.status_ne_faulted {i : Instr} {s t : State} (h : Effect i s t) (hrun : s.status = .running) (f : Fault) :
    t.status ≠ .faulted f := by
  rw [h.status_eq, hrun]
  split <;> simp

/-- All the ways a step can end faulted: by a fault of the first half of the cycle, or of the operands of the instruction
fetched, and either leaves only IR, the latches and the status changed. -/
theorem step_faulted_cases {s t : State} {f : Fault} (h : step s = .next t) (ht : t.status = .faulted f) :
    ∃ s', LatchedFrom s s' ∧ t = s'.faultWith f
      ∧ (s.fetch = .trap f s' ∨ ∃ i, s.fetch = .instr i s' ∧ OperandFault i s' f) := by
  obtain ⟨hrun, ⟨g, s', hf, hl, rfl⟩ | ⟨i, s', hi, hl, he⟩⟩ := step_cases h
  · cases ht
    exact ⟨s', hl, rfl, .inl hf⟩
  · rcases exec_cases he with heff | ⟨g, hg, rfl⟩
    · obtain ⟨op, l, rfl, -⟩ := hl
      exact absurd ht (heff.status_ne_faulted hrun f)
    · cases ht
      exact ⟨s', hl, rfl, .inr ⟨i, hi, hg⟩⟩

/-- Settles O26: the state a fault is raised in differs from the one before the step in IR and the latches only. -/
theorem faultsArePrecise : Obligations.FaultsArePrecise := by
  intro s t f h ht
  refine ⟨?_, fun hpc => step_ir hpc h⟩
  obtain ⟨s', ⟨op, l, rfl, -⟩, rfl, -⟩ := step_faulted_cases h ht
  rfl

/-! ### The generic ALU entry point (R130, R173) -/

/-- On register indices the generic ALU writes the additive operation's result and does not move PC (D23). -/
theorem genericAlu_add_fin (s : State) (a b : Fin 8) :
    genericAlu "ADD" a b s = .next (s.setReg a (s.narrow (s.reg a + s.reg b))) := by
  rw [genericAlu, if_pos rfl, withRegs_fin, State.aluBinary]

/-- Settles O28: no first half of a cycle and no operand of an instruction has the generic ALU's fault. -/
theorem genericAluIsUnreachable : Obligations.GenericAluIsUnreachable := by
  refine ⟨⟨"ADD", fun s a b => ⟨_, genericAlu_add_fin s a b, ?_, ?_⟩, fun name rA rB s hne => ?_⟩, fun s t name h ht => ?_⟩
  · rw [State.reg_setReg, if_pos rfl, State.narrow_eq_stored]
  · exact (RegisterFrame.refl [a] s).setReg (List.mem_singleton_self a) _
  · rw [genericAlu, if_neg hne, raise, State.faultWith]
  · obtain ⟨s', -, -, hf | ⟨i, -, ⟨r, -, -, hr⟩ | ⟨a, -, ha, -⟩⟩⟩ := step_faulted_cases h ht
    · obtain ⟨-, ⟨v, hv⟩ | ⟨a, ha⟩⟩ := State.fetch_trap hf
      · cases hv
      · cases ha
    · cases hr
    · cases ha

/-! ### The fault a handler raises (R176, cases 4 and 5) -/

/-- The outcome is a next state, faulted with exactly the fault given, or not faulted when none is. -/
def Raises (x : Host.Outcome State Fault Refusal) (o : Option Fault) : Prop :=
  ∃ t, x = .next t ∧ ∀ f, t.status = .faulted f ↔ o = some f

theorem raises_raise (f : Fault) (s : State) : Raises (raise f s) (some f) :=
  ⟨_, rfl, fun g => by simp⟩

/-- The part of `firstFault` that the handler decides: a register operand, the first before the second; the data address. -/
def handlerFault (s : State) (i : Instr) : Option Fault :=
  match i.regOperands.find? (fun r => decide (8 ≤ r)) with
  | some r => some (.badRegister r)
  | none =>
    match dataAddress s i with
    | some a => if 255 < a then some (.badAddress a) else none
    | none => none

section
variable {s t : State} {i : Instr}

theorem handlerFault_of_find {r : Nat} (h : i.regOperands.find? (fun x => decide (8 ≤ x)) = some r) :
    handlerFault s i = some (.badRegister r) := by
  rw [handlerFault, h]

theorem handlerFault_of_dataAddress_gt (h : i.regOperands.find? (fun x => decide (8 ≤ x)) = none) {a : Nat}
    (hdata : dataAddress s i = some a) (ha : 255 < a) : handlerFault s i = some (.badAddress a) := by
  simp only [handlerFault, h, hdata, if_pos ha]

theorem handlerFault_of_dataAddress_le (h : i.regOperands.find? (fun x => decide (8 ≤ x)) = none)
    (hdata : ∀ a, dataAddress s i = some a → a ≤ 255) : handlerFault s i = none := by
  rw [handlerFault, h]
  cases ha : dataAddress s i with
  | none => rfl
  | some a => exact if_neg (not_lt.2 (hdata a ha))

/-- An instruction that has its effect reads its data cell at an address in range (R43). -/
theorem Effect.dataAddress_le (h : Effect i s t) {a : Nat} (ha : dataAddress s i = some a) : a ≤ 255 := by
  cases i <;> simp only [Effect] at h
  case ld =>
    obtain ⟨-, b, -, rfl, hb, -⟩ := h
    simp only [dataAddress, b.isLt, dite_true, Option.some.injEq] at ha
    exact ha ▸ hb
  case pop =>
    obtain ⟨-, -, hsp, -⟩ := h
    cases ha
    exact hsp
  case ret =>
    obtain ⟨hsp, -⟩ := h
    cases ha
    exact hsp
  all_goals cases ha

/-- A handler raises its first fault and no other. -/
theorem exec_raises (hrun : s.status = .running) : Raises (exec i s) (handlerFault s i) := by
  cases hreg : i.regOperands.find? (fun x => decide (8 ≤ x)) with
  | some r =>
    rw [handlerFault_of_find hreg, exec_of_find hreg]
    exact raises_raise _ s
  | none =>
    obtain ⟨t, ht⟩ := exec_total i s
    rw [ht]
    rcases exec_cases ht with heff | ⟨f, ⟨r, hr, hr8, -⟩ | ⟨a, ha, rfl, haddr⟩, rfl⟩
    · rw [handlerFault_of_dataAddress_le hreg fun a => heff.dataAddress_le]
      exact ⟨t, rfl, fun f => by simp [heff.status_ne_faulted hrun f]⟩
    · exact absurd (decide_eq_true hr8) (List.find?_eq_none.1 hreg r hr)
    · have hdata : dataAddress s i = some a := by
        obtain ⟨rA, b, rfl, rfl⟩ | ⟨⟨rA, rfl⟩ | rfl, rfl⟩ := haddr
        · exact dif_pos b.isLt
        · rfl
        · rfl
      rw [handlerFault_of_dataAddress_gt hreg hdata ha]
      exact raises_raise _ s

end

/-! ### The first fault of a cycle (R176) -/

section
variable {s : State}

theorem firstFault_of_opcode_gt (hop : 255 < s.opcode) : firstFault s = some (.unknownOpcode s.opcode) := if_pos hop

theorem firstFault_of_not_reachable (hop : s.opcode ≤ 255) (hr : ¬ s.operandsReachable) :
    firstFault s = some (.badAddress 256) := by
  rw [firstFault, if_neg (not_lt.2 hop), if_pos (State.not_operandsReachable.1 hr).symm]

/-- With an opcode byte and operands in reach, a byte that is no row is the first fault. -/
theorem firstFault_of_no_row (hop : s.opcode ≤ 255) (hr : s.operandsReachable)
    (hrow : s.config.opcodeMap.lookup (BitVec.ofNat 8 s.opcode) = none) : firstFault s = some (.unknownOpcode s.opcode) := by
  rw [firstFault, if_neg (not_lt.2 hop), if_neg fun h => State.not_operandsReachable.2 h.symm hr, hrow]

/-- With an instruction fetched, the first fault is the one its handler raises. -/
theorem firstFault_of_instr (hop : s.opcode ≤ 255) (hr : s.operandsReachable) {k : Mnemonic} {i : Instr}
    (hrow : s.config.opcodeMap.lookup (BitVec.ofNat 8 s.opcode) = some k) (hi : Instr.assemble k s.operandCells = some i) :
    firstFault s = handlerFault s i := by
  rw [firstFault, if_neg (not_lt.2 hop), if_neg fun h => State.not_operandsReachable.2 h.symm hr, hrow]
  dsimp only
  rw [hi]
  rfl

/-- A cycle whose first half ends with its first fault raises it. -/
theorem step_raises_of_trap {s' : State} {f : Fault} (hrun : s.status = .running) (h : s.fetch = .trap f s')
    (hf : firstFault s = some f) : Raises (step s) (firstFault s) := by
  rw [hf, step_of_trap hrun h]
  exact raises_raise f s'

end

/-- Settles O15: each way the cycle ends, in R176's order, with the fault `firstFault` gives there. -/
theorem firstFaultInOrderIsRaised : Obligations.FirstFaultInOrderIsRaised := by
  intro s hrun hm hpc
  change Raises (step s) (firstFault s)
  rcases lt_or_ge 255 s.opcode with hop | hop
  · exact step_raises_of_trap hrun (State.fetch_of_opcode_gt hpc hop) (firstFault_of_opcode_gt hop)
  by_cases hr : s.operandsReachable
  case neg =>
    exact step_raises_of_trap hrun (State.fetch_of_not_reachable hpc hop hr) (firstFault_of_not_reachable hop hr)
  cases hrow : s.config.opcodeMap.lookup (BitVec.ofNat 8 s.opcode) with
  | none =>
    have hfetch := State.fetch_of_no_row hpc hop (State.fetchOperands_of_reachable hpc hr) hrow
    exact step_raises_of_trap hrun hfetch (firstFault_of_no_row hop hr hrow)
  | some k =>
    have hcount := State.operandCount_of_code hm (OpcodeMap.code_of_lookup hrow)
    obtain ⟨i, hi⟩ := Instr.assemble_isSome (s.length_operandCells.trans hcount)
    obtain ⟨rfl, hops⟩ := Instr.assemble_some hi
    have hfetch := (State.fetch_eq_instr hpc).2 ⟨hop, hr, dispatch_eq_ok.2 ⟨hrow, hops⟩, rfl⟩
    rw [firstFault_of_instr hop hr hrow hi, step_of_instr hrun hfetch]
    -- A handler's fault does not depend on IR and the latches, in which alone the state it runs in differs from `s`.
    exact exec_raises (i := i) (s := (s.latchOpcode s.opcode).latchDecode _ s.operandCells) hrun

end Sys2Proof.Machine
end

section
/-! SUPPORT. The statements of 70_reset_and_hazards.md: what `start` answers, once for an image that fits and once for one that
does not, and what the started machine's cells read. -/

namespace Sys2Proof.Machine

/-- Settles O18: construct, load and invoke each keep the invariant. -/
theorem everyStartMeetsMachineInvariant : Obligations.EveryStartMeetsMachineInvariant :=
  fun _ _ _ _ hc hstart => start_inv hc hstart

/-! ### What a start answers (R191, R193) -/

section
variable (c : Config) (v : StartValues) {image : List Byte}

/-- The running machine with an image in memory and everything else as constructed. -/
def started (image : List Byte) : State :=
  { construct c v with status := .running, mem := (construct c v).mem.writeBytes 0 image }

/-- An image that fits is loaded, and the machine runs. -/
theorem start_of_length_le (h : image.length ≤ 256) : start c v (some image) = .next (started c v image) := by
  have hload : load image (construct c v) = .next { construct c v with mem := (construct c v).mem.writeBytes 0 image } :=
    if_pos h
  rw [start, imageOrFallback, Option.getD_some, hload]
  rfl

/-- An image that does not fit is refused by the load (D20). -/
theorem start_of_length_gt (h : 256 < image.length) :
    start c v (some image) = .refused (.imageTooLong image.length) := by
  have hload : load image (construct c v) = .refused (.imageTooLong image.length) := if_neg (not_le.2 h)
  rw [start, imageOrFallback, Option.getD_some, hload]

/-! ### The cells of a started machine (R37, R193) -/

/-- A constructed machine's cells hold MEM_INIT (D6). -/
theorem construct_mem_read {a : Nat} (ha : a ≤ 255) : (construct c v).mem.read a = (v.memInit.getD a 0).toNat := by
  have hlen : 0 + (v.memInit.take 256).length ≤ 256 := by simp
  rw [construct, Memory.read_writeBytes Memory.wf_nil hlen, List.length_take]
  split
  · rw [Nat.sub_zero, List.getD_eq_getElem?_getD, List.getElem?_take_of_lt (by omega), List.getD_eq_getElem?_getD]
  · rw [List.getD_eq_default v.memInit 0 (by omega)]
    rfl

/-- A started machine's cells hold the image, and past its end what they held when constructed. -/
theorem started_mem_read (h : image.length ≤ 256) (a : Nat) :
    (started c v image).mem.read a = if a < image.length then (image.getD a 0).toNat else (construct c v).mem.read a := by
  have hwf : (construct c v).mem.WF := Memory.writeBytes_wf Memory.wf_nil (by simp)
  rw [started, Memory.read_writeBytes hwf (by omega)]
  simp

end

/-- Settles O52: the registers, flags, output and parameters are the constructed machine's, and the load writes memory only. -/
theorem startHoldsItsResetValues : Obligations.StartHoldsItsResetValues := by
  intro c v image h
  refine ⟨started c v image, start_of_length_le c v h, rfl, rfl, rfl, rfl, rfl, rfl, rfl, rfl, rfl, rfl, rfl, rfl, rfl,
    fun a ha => ?_, fun a ha hle => ?_⟩
  · rw [started_mem_read c v h, if_pos ha]
  · rw [started_mem_read c v h, if_neg (not_lt.2 ha), construct_mem_read c v hle]

/-- Settles O53: the fallback image is these bytes, and every valid map has the three opcodes among them (R67). -/
theorem fallbackProgramIsLoaded : Obligations.FallbackProgramIsLoaded := by
  refine ⟨fun _ _ => rfl, fun m ⟨_, _, _, hhlt, hldi, hprn⟩ => ?_⟩
  simp [encode, Instr.mnemonic, Instr.operands, OpcodeMap.code, hhlt, hldi, hprn]

/-- Settles O54: the load refuses the image, so the machine is never invoked. -/
theorem imageOver256BytesIsRefused : Obligations.ImageOver256BytesIsRefused :=
  fun c v _ h => start_of_length_gt c v h

end Sys2Proof.Machine
end
